-- ==== Sys2Proof/Word.lean ====
section
/-! DEFINITION. The words of the QSS4 capture core and the names of its two channels. -/

namespace Sys2Proof

/-- A byte, value 0..255 (R14). -/
abbrev Byte := BitVec 8

/-- The 16-bit operation word of `OP[15:0]` (R65). -/
abbrev Word := BitVec 16

/-- The channel set `Ch` of R12: `m` is the motor-controller link (arbiter channel A), `d` the display link (B). -/
inductive Chan where
  | m
  | d
deriving DecidableEq, Repr

end Sys2Proof
end

