-- ==== Sys2Proof/Config.lean ====
section
/-! DEFINITION. The implementation parameters of R5 to R11 (collected in R34): constants for the life of the block.
The spec leaves every one of them open, so `Config` is plain data that the state carries and no step writes
(DESIGN CHOICE, safe, assumption log 1): a claim about every state is a claim about every parameter value. -/

namespace Sys2Proof

/-- `RX_MODEL` (R5). -/
inductive RxModel where
  | dedicated
  | shared
deriving DecidableEq, Repr

/-- A known-packet specification (R10, R120): start byte, total packet length `L`, and a label that plays no part in
the scan. -/
structure Kps where
  start : Byte
  plen  : Nat
  name  : String
deriving DecidableEq, Repr

/-- The parameters of R34. Times are in milliseconds. -/
structure Config where
  /-- `RX_MODEL` (R5) -/
  rxModel      : RxModel
  /-- `CAPACITY(M)` (R6) -/
  capacityM    : Nat
  /-- `CAPACITY(D)` (R6) -/
  capacityD    : Nat
  /-- `GAP_THRESHOLD` (R7) -/
  gapThreshold : Nat
  /-- `TIMESLICE` (R8) -/
  timeslice    : Nat
  /-- `TIME_WIDTH` in bits (R9) -/
  timeWidth    : Nat
  /-- `KPS(M)` (R10) -/
  kpsM         : Option Kps
  /-- `KPS(D)` (R10) -/
  kpsD         : Option Kps
  /-- `INIT_ACTIVE` (R11) -/
  initActive   : Chan
deriving DecidableEq, Repr

/-- `CAPACITY(c)` (R6). -/
def Config.capacity (cfg : Config) : Chan → Nat
  | .m => cfg.capacityM
  | .d => cfg.capacityD

/-- `KPS(c)` (R10). -/
def Config.kps (cfg : Config) : Chan → Option Kps
  | .m => cfg.kpsM
  | .d => cfg.kpsD

/-- The parameter values that `State.reset` carries (DESIGN CHOICE, unsafe, assumption log 3): the conventions of
`95_test_vectors.md` (`TIME_WIDTH = 32`, `INIT_ACTIVE = M`, no known packet, capacity 4, gap 10, slice 50) with the
receiver model under which all five operations exist. No statement rests on them. -/
def Config.ofVectors : Config where
  rxModel := .shared
  capacityM := 4
  capacityD := 4
  gapThreshold := 10
  timeslice := 50
  timeWidth := 32
  kpsM := none
  kpsD := none
  initActive := .m

end Sys2Proof
end

