-- ==== Sys2Proof/Machine/Memory.lean ====
section
/-! DEFINITION. Buffer storage `BUF[c]` as plain data (R22, R39, R50): every index holds a byte, and the bytes a reset
leaves are whatever the reset says (assumption log 5). -/

namespace Sys2Proof.Machine

/-- One channel's buffer storage `BUF[c]` (R22): index and byte, in the one form of `Memory.wf`. -/
abbrev Memory := List Host.Cell

/-- What an index that is not listed holds: every index holds a byte (R16), and leaving this one out makes equal
contents equal data. It is the representation's choice; the contents of a reset are not (assumption log 5). -/
def Memory.blank : Byte := 0#8

/-- The byte at index `i`. -/
def Memory.read : Memory → Nat → Byte
  | [], _ => Memory.blank
  | (a, b) :: rest, i => if a = i then b else Memory.read rest i

/-- The storage without what is listed at index `i`. -/
def Memory.erase (mem : Memory) (i : Nat) : Memory := mem.filter fun cell => decide (cell.1 ≠ i)

/-- List a byte at index `i`, before the first higher index. -/
def Memory.insert : Memory → Nat → Byte → Memory
  | [], i, v => [(i, v)]
  | (a, b) :: rest, i, v => if a < i then (a, b) :: Memory.insert rest i v else (i, v) :: (a, b) :: rest

/-- Put a byte at index `i`, keeping the one form. -/
def Memory.write (mem : Memory) (i : Nat) (v : Byte) : Memory :=
  if v = Memory.blank then mem.erase i else (mem.erase i).insert i v

/-- The canonical form of a buffer's storage: indices strictly rising, and no entry equal to what an unlisted index
holds. -/
abbrev Memory.wf (mem : Memory) : Prop :=
  (mem.map Prod.fst).Pairwise (· < ·) ∧ ∀ cell ∈ mem, cell.2 ≠ Memory.blank

/-- Storage that holds these bytes from index `i` on. -/
def Memory.ofBytes : Nat → List Byte → Memory
  | _, [] => []
  | i, b :: bs =>
    if b = Memory.blank then Memory.ofBytes (i + 1) bs else (i, b) :: Memory.ofBytes (i + 1) bs

/-- What both buffers hold when a reset is released, index 0 first: the spec gives any value (R22, R160), so a reset
names them and claims are about all of them. -/
structure Contents where
  m : List Byte
  d : List Byte
deriving DecidableEq, Repr

/-- The contents of channel `c`. -/
def Contents.of (x : Contents) : Chan → List Byte
  | .m => x.m
  | .d => x.d

/-- Nothing named: every byte is the blank one. -/
def Contents.blank : Contents := { m := [], d := [] }

end Sys2Proof.Machine
end

