-- ==== Sys2Proof/Syntax.lean ====
section
/-! DEFINITION. The five operations of `opcode_table.json` (R68), one constructor per row. The time operand `NOW` is
presented beside the word and is no field of it (R66). -/

namespace Sys2Proof

/-- An operation of the interface, as the decoder of R72 reads it. -/
inductive Instr where
  /-- ADD: one received byte for a channel (R91). -/
  | add (ch : Chan) (b : Byte)
  /-- TICK: evaluate the silence gap of every channel (R100). -/
  | tick
  /-- ARB: evaluate the time slice (R110). -/
  | arb
  /-- FSW: force a switch of the active channel (R112). -/
  | fsw
  /-- DISCARD: clear both buffers without emitting them (R130). -/
  | discard
deriving DecidableEq, Repr

end Sys2Proof
end

