-- ==== Sys2Proof/Machine/State.lean ====
section
/-! DEFINITION. The state of the block (R20), the reasons a step can stop, and the state after reset (R160). -/

namespace Sys2Proof.Machine

/-- The registers of one channel (R22 to R25). -/
structure Channel where
  /-- `BUF[c]` (R22) -/
  buf  : Memory
  /-- `LEN[c]` (R23) -/
  len  : Nat
  /-- `OVF[c]` (R24) -/
  ovf  : Bool
  /-- `LAST[c]` (R25), a `TIME_WIDTH`-bit value -/
  last : Nat
deriving DecidableEq, Repr

/-- The arbiter registers (R28, R29). -/
structure Arbiter where
  /-- `ACTIVE` (R28) -/
  active : Chan
  /-- `LSW` (R29), a `TIME_WIDTH`-bit value -/
  lsw    : Nat
deriving DecidableEq, Repr

/-- `PHASE` (R30): the position inside the current cycle. -/
inductive Phase where
  | ctrl
  | poll
  | arb
deriving DecidableEq, Repr

/-- The reasons of the model-only refusal (R146). -/
inductive Reason where
  | reservedEncoding
  | notInConfiguration
  | outOfPhase
deriving DecidableEq, Repr

/-- `refused(reason, word, phase)`, the first refusal (R32). -/
structure Mark where
  reason : Reason
  word   : Word
  phase  : Phase
deriving DecidableEq, Repr

/-- An event record of `EVT` (R38). -/
inductive Event where
  /-- `FrameCompleted` (R80). -/
  | frameCompleted (ch : Chan) (ovf : Bool) (n : Nat) (bytes : List Byte)
  /-- `KnownPacket` (R81). -/
  | knownPacket (ch : Chan) (offset : Nat) (bytes : List Byte)
deriving DecidableEq, Repr

/-- What the host presents in one step (R36). The time is the true time in milliseconds; the port samples it modulo
`2^TIME_WIDTH` (R9, R171). -/
inductive Stimulus where
  /-- `OP_VALID = 0` (R36 (a)). -/
  | idle
  /-- An operation word with its time (R36 (a), (b)). -/
  | op (w : Word) (now : Nat)
  /-- A whole pulse of `RST`, released at this time (R36 (c), R160; DESIGN CHOICE, safe, assumption log 8), and the
  bytes the buffers hold at release, which the spec leaves at any value (assumption log 5). -/
  | reset (now : Nat) (bytes : Contents)
deriving DecidableEq, Repr

/-- The state: the parameters (R34, assumption log 1), the tuple `S` of R20, and the block's inputs (assumption
log 2). -/
structure State where
  /-- the parameters of R34, written by no step (R13) -/
  cfg     : Config
  /-- `BUF[M], LEN[M], OVF[M], LAST[M]` -/
  chM     : Channel
  /-- `BUF[D], LEN[D], OVF[D], LAST[D]` -/
  chD     : Channel
  /-- `ACTIVE, LSW`, which exist only when `RX_MODEL = Shared` (R33) -/
  arb     : Option Arbiter
  /-- `PHASE` (R30) -/
  phase   : Phase
  /-- `REFUSED` (R32) -/
  refused : Option Mark
  /-- `EVT` (R38), oldest record first -/
  evt     : List Event
  /-- the `NOW` value presented with the current operation (R36 (b)): an input, not the block's own state -/
  now     : Nat
  /-- what the host will present, next first (R36): an input, not the block's own state -/
  input   : List Stimulus
deriving DecidableEq, Repr

/-- Why a step stops. The block itself has no trap (R140): each of these needs a state outside `State.Inv`, which no
run from reset reaches. -/
inductive Fault where
  /-- Raised by a buffer access at an index that is not below `CAPACITY(c)` (R39, R53). Safe. -/
  | noSuchIndex (c : Chan) (i : Nat)
  /-- Raised by ARB and FSW when the configuration is `Shared` and the arbiter registers are not there (R33). Safe. -/
  | arbiterAbsent
deriving DecidableEq, Repr

/-- Why the model gives an instruction no meaning. -/
inductive Refusal where
  /-- Raised by a refused arm of `exec`; every operation has its meaning, so nothing raises it. Safe. -/
  | notModelled (mnemonic : String)
deriving DecidableEq, Repr

/-- A channel after reset (R22 to R25, R160), its `CAPACITY(c)` bytes of `BUF[c]` holding these bytes and then blank
ones. -/
def Channel.reset (cap : Nat) (bytes : List Byte) : Channel :=
  { buf := Memory.ofBytes 0 (bytes.take cap), len := 0, ovf := false, last := 0 }

/-- The state when `RST` is released at time `t` with the parameters `cfg` (R160, R115) and these bytes in the
buffers; `t_reset` is the `NOW` sample at release. -/
def State.resetOf (cfg : Config) (t : Nat) (bytes : Contents) : State where
  cfg := cfg
  chM := Channel.reset cfg.capacityM bytes.m
  chD := Channel.reset cfg.capacityD bytes.d
  arb :=
    match cfg.rxModel with
    | .dedicated => none
    | .shared => some { active := cfg.initActive, lsw := t % 2 ^ cfg.timeWidth }
  phase := .ctrl
  refused := none
  evt := []
  now := t % 2 ^ cfg.timeWidth
  input := []

/-- The machine right after reset, at time 0, with the parameter values of assumption log 3, every byte of the buffers
0 (assumption log 5) and nothing presented yet. -/
def State.reset : State := State.resetOf Config.ofVectors 0 Contents.blank

end Sys2Proof.Machine
end

