-- ==== Sys2Proof/Machine/Flags.lean ====
section
/-! DEFINITION. The status of the block: the overflow flag, its only condition bit (R24, R141), and the numbers the
spec gives its phases, reasons and record kinds. -/

namespace Sys2Proof.Machine

/-- A received byte found no room: `OVF[c] <- 1`, the byte is discarded (R91, R141 `Overflow`). -/
def Channel.setOverflow (x : Channel) : Channel := { x with ovf := true }

/-- Clear: `LEN[c] <- 0; OVF[c] <- 0` (R19); `BUF` and `LAST` stay (R101, R130). -/
def Channel.clear (x : Channel) : Channel := { x with len := 0, ovf := false }

/-- `LAST[c] <- now` (R91). -/
def Channel.touch (x : Channel) (now : Nat) : Channel := { x with last := now }

/-- The 2-bit value of `PHASE` (R30). -/
def Phase.code : Phase → BitVec 2
  | .ctrl => 0#2
  | .poll => 1#2
  | .arb => 2#2

/-- The code of a refusal reason (R146). -/
def Reason.code : Reason → Nat
  | .reservedEncoding => 1
  | .notInConfiguration => 2
  | .outOfPhase => 3

/-- The `kind` field of an event record: `0 = FRAME` (R80), `1 = KNOWN` (R81). -/
def Event.kind : Event → BitVec 1
  | .frameCompleted _ _ _ _ => 0#1
  | .knownPacket _ _ _ => 1#1

/-- The `ch` field of an event record (R80, R81). -/
def Event.channel : Event → Chan
  | .frameCompleted ch _ _ _ => ch
  | .knownPacket ch _ _ => ch

end Sys2Proof.Machine
end

