-- ==== Sys2Proof/WellFormed.lean ====
section
/-! DEFINITION. Well-formedness. An operation has nothing to check: each field's type holds exactly the values the
word can encode (R65, R66), so every term of `Instr` is well formed; whether it belongs to the interface of a
configuration is R70's check, `Instr.inInterface` in Decode.lean. What is checked here are the parameter ranges. -/

namespace Sys2Proof

/-- `PLEN(c) >= 2` (R10). -/
def Kps.wf (k : Kps) : Bool := decide (2 ≤ k.plen)

/-- The stated ranges of R6 to R10. -/
def Config.wf (cfg : Config) : Bool :=
  decide (1 ≤ cfg.capacityM) &&
  decide (1 ≤ cfg.capacityD) &&
  decide (1 ≤ cfg.timeWidth) &&
  decide (cfg.gapThreshold < 2 ^ cfg.timeWidth) &&
  decide (cfg.timeslice < 2 ^ cfg.timeWidth) &&
  cfg.kpsM.all Kps.wf &&
  cfg.kpsD.all Kps.wf

end Sys2Proof
end

