-- ==== Sys2Proof/Decode.lean ====
section
/-! DEFINITION. The operation word of R65 to R72: fields, decoder, the configuration check of R70, and the encoder. -/

namespace Sys2Proof

/-- Channel bit of a word: `0 = M`, `1 = D` (R12, R65). -/
def Chan.bit : Chan → BitVec 1
  | .m => 0#1
  | .d => 1#1

/-- The channel a `CH` bit names (R12). -/
def Chan.ofBit (b : BitVec 1) : Chan := if b = 1#1 then .d else .m

/-- `OPC`, bits 15:12 (R65). -/
def Word.opc (w : Word) : BitVec 4 := w.extractLsb' 12 4

/-- `RSV`, bits 11:9 (R65). -/
def Word.rsv (w : Word) : BitVec 3 := w.extractLsb' 9 3

/-- `CH`, bit 8 (R65). -/
def Word.chBit (w : Word) : BitVec 1 := w.extractLsb' 8 1

/-- `DATA`, bits 7:0 (R65). -/
def Word.data (w : Word) : Byte := w.extractLsb' 0 8

/-- What the decoder answers (R72): an operation, or `Reserved`, the name under which it rejects a word. -/
inductive Decoded where
  | op (i : Instr)
  | reserved
deriving DecidableEq, Repr

/-- The decoder of R72, total on all 65536 words. -/
def decode (w : Word) : Decoded :=
  if Word.opc w = 1#4 ∧ Word.rsv w = 0#3 then .op (.add (Chan.ofBit (Word.chBit w)) (Word.data w))
  else if w = 0x2000#16 then .op .tick
  else if w = 0x3000#16 then .op .arb
  else if w = 0x4000#16 then .op .fsw
  else if w = 0x5000#16 then .op .discard
  else .reserved

/-- The word of an operation, `OPC RSV CH DATA` from the most significant bit down (R65, R69). -/
def encode : Instr → Word
  | .add ch b => 1#4 ++ 0#3 ++ ch.bit ++ b
  | .tick => 2#4 ++ 0#12
  | .arb => 3#4 ++ 0#12
  | .fsw => 4#4 ++ 0#12
  | .discard => 5#4 ++ 0#12

/-- Configuration-dependent part of decoding (R70): ARB and FSW are part of the interface only under `Shared`. -/
def Instr.inInterface (rx : RxModel) : Instr → Bool
  | .add _ _ => true
  | .tick => true
  | .arb => decide (rx = .shared)
  | .fsw => decide (rx = .shared)
  | .discard => true

/-- The 16-bit word that `nbits` table bits `w` stand for: bits of `w` from `nbits` up are 0, and the word is the
longest instruction there is (R65), so nothing is read above bit 15. -/
def wordOfTable (nbits w : Nat) : Word := BitVec.ofNat 16 (w % 2 ^ nbits)

/-- The operation the decoder reads from a word numbered as `opcode_table.json` numbers it. -/
def decodeTableWord (nbits w : Nat) : Option Instr :=
  match decode (wordOfTable nbits w) with
  | .op i => some i
  | .reserved => none

end Sys2Proof
end

