-- ==== Sys2Proof/Machine/Operands.lean ====
section
/-! DEFINITION. Operand forms: channel selection, the time operand and the comparisons made on it (R12, R15, R66, R90,
R102, R110). -/

namespace Sys2Proof

/-- `other(c)` (R12). -/
def Chan.other : Chan → Chan
  | .m => .d
  | .d => .m

namespace Machine

/-- `elapsed(now, t) = (now - t) mod 2^TIME_WIDTH` (R15). -/
def elapsed (width now t : Nat) : Nat := (((now : Int) - (t : Int)) % ((2 ^ width : Nat) : Int)).toNat

/-- `NOW` as the port samples it (R9, R36 (b), R171). -/
def Config.sampleNow (cfg : Config) (t : Nat) : Nat := t % 2 ^ cfg.timeWidth

/-- The registers of channel `c` (R21: selected only by a channel field or by the order of a TICK). -/
def State.ch (s : State) : Chan → Channel
  | .m => s.chM
  | .d => s.chD

/-- `receivable(c)` (R90). -/
def State.receivable (s : State) (c : Chan) : Bool :=
  decide (s.cfg.rxModel = .dedicated) || decide (s.arb.map Arbiter.active = some c)

/-- The gap test of channel `c` at the presented time (R102). -/
def State.gapElapsed (s : State) (c : Chan) : Bool :=
  decide (s.cfg.gapThreshold ≤ elapsed s.cfg.timeWidth s.now (s.ch c).last)

/-- Channel `c` is flushed by a TICK now (R100): it is non-empty and its gap has elapsed. -/
def State.due (s : State) (c : Chan) : Bool := decide (0 < (s.ch c).len) && s.gapElapsed c

/-- The slice test of the arbiter `a` at the presented time (R110). -/
def State.sliceElapsed (s : State) (a : Arbiter) : Bool :=
  decide (s.cfg.timeslice ≤ elapsed s.cfg.timeWidth s.now a.lsw)

end Machine

end Sys2Proof
end

