-- ==== Sys2Proof/Machine/Ops.lean ====
section
/-! DEFINITION. The named operations the meanings share: buffer access (R16, R50 to R54), register writes, the event
output (R18, R38), and the checks made before an operation takes effect with the refusal they lead to (R31, R72,
R146, R147). The block has no trap, hence no trap entry and no return (R140, R149, R150): the refusal is the one
departure from an operation's own effect. -/

namespace Sys2Proof.Machine

/-- The outcome of a step of this machine. -/
abbrev Result := Host.Outcome State Fault Refusal

/-- Go on from a next state; a stop stays a stop. -/
def andThen (o : Result) (f : State → Result) : Result :=
  match o with
  | .next s => f s
  | .fault e => .fault e
  | .refused r => .refused r

/-- Byte `i` of channel `c`'s buffer: the model's read of one byte. -/
def State.readByte (s : State) (c : Chan) (i : Nat) : Byte := Memory.read (s.ch c).buf i

/-- Replace the registers of channel `c`. -/
def State.setCh (s : State) (c : Chan) (x : Channel) : State :=
  match c with
  | .m => { s with chM := x }
  | .d => { s with chD := x }

/-- `PHASE <- p` (R18). -/
def State.setPhase (s : State) (p : Phase) : State := { s with phase := p }

/-- `ACTIVE` and `LSW` written together (R110, R112). -/
def State.setArb (s : State) (a : Arbiter) : State := { s with arb := some a }

/-- `emit E` (R18): append the record at the end of `EVT` (R38). -/
def State.emit (s : State) (e : Event) : State := { s with evt := s.evt ++ [e] }

/-- `MemRead(c, i)` (R16): `BUF[c][i]`. An index that does not exist faults (assumption log 6). -/
def State.memRead (s : State) (c : Chan) (i : Nat) : Except Fault Byte :=
  if i < s.cfg.capacity c then .ok (s.readByte c i) else .error (.noSuchIndex c i)

/-- `MemWrite(c, i, v)` (R16). An index that does not exist faults. -/
def State.memWrite (s : State) (c : Chan) (i : Nat) (v : Byte) : Result :=
  if i < s.cfg.capacity c then
    .next (s.setCh c { s.ch c with buf := Memory.write (s.ch c).buf i v })
  else .fault (.noSuchIndex c i)

/-- `n` bytes of channel `c`'s buffer from index `i` on. -/
def State.readBytes (s : State) (c : Chan) : Nat → Nat → Except Fault (List Byte)
  | _, 0 => .ok []
  | i, n + 1 =>
    match s.memRead c i with
    | .error e => .error e
    | .ok b =>
      match s.readBytes c (i + 1) n with
      | .error e => .error e
      | .ok bs => .ok (b :: bs)

/-- `frame(c) = BUF[c][0 .. LEN[c]-1]` (R17), index 0 first (R51). -/
def State.frame (s : State) (c : Chan) : Except Fault (List Byte) := s.readBytes c 0 (s.ch c).len

/-- The arbiter switches: `ACTIVE <- other(ACTIVE); LSW <- now` (R110, R112). -/
def Arbiter.switch (a : Arbiter) (now : Nat) : Arbiter := { active := a.active.other, lsw := now }

/-- Whether an operation may be presented in phase `p`: the second column of R31. -/
def Instr.legalIn : Instr → Phase → Bool
  | .add _ _, p => decide (p = .ctrl ∨ p = .poll)
  | .tick, p => decide (p = .ctrl ∨ p = .poll)
  | .arb, p => decide (p = .arb)
  | .fsw, p => decide (p = .ctrl)
  | .discard, p => decide (p = .ctrl)

/-- `refuse` (R18, R146): record the first refusal; nothing else changes, and a later one changes nothing at all. -/
def State.refuse (s : State) (r : Reason) (w : Word) : State :=
  match s.refused with
  | none => { s with refused := some { reason := r, word := w, phase := s.phase } }
  | some _ => s

/-- The checks after decoding, in the order of R147: configuration (R70), then phase (R31). -/
def State.check (s : State) (i : Instr) : Option Reason :=
  if i.inInterface s.cfg.rxModel then
    if Instr.legalIn i s.phase then none else some .outOfPhase
  else some .notInConfiguration

/-- What every operation does around its own effect: after a refusal nothing has any effect (R32, R146); an operation
that fails a check is refused, recording its word; one that passes has its effect (R72). -/
def perform (i : Instr) (s : State) (effect : State → Result) : Result :=
  match s.refused with
  | some _ => .next s
  | none =>
    match s.check i with
    | some r => .next (s.refuse r (encode i))
    | none => effect s

/-- The port samples `NOW` with an operation, and the host's stream moves on (R36). -/
def State.sample (s : State) (t : Nat) (rest : List Stimulus) : State :=
  { s with now := Config.sampleNow s.cfg t, input := rest }

/-- `OP_VALID = 0`: nothing changes but the host's stream moving on (R36 (a), R157). -/
def State.skip (s : State) (rest : List Stimulus) : State := { s with input := rest }

/-- `RST` released at time `t` with these bytes in the buffers (R160): every element of the state takes its reset value;
the parameters are constants (R13), and the host goes on presenting what it has to present. -/
def State.restart (s : State) (t : Nat) (bytes : Contents) (rest : List Stimulus) : State :=
  { State.resetOf s.cfg t bytes with input := rest }

end Sys2Proof.Machine
end

