-- ==== Sys2Proof/Machine/Accumulator.lean ====
section
/-! DEFINITION. The frame accumulator: ADD (R90 to R94). -/

namespace Sys2Proof.Machine

/-- A byte for a receivable channel (R91): stored at `LEN[ch]` when there is room, else `OVF[ch] <- 1`; `LAST[ch]` is
written either way. -/
def accumulate (ch : Chan) (b : Byte) (s : State) : Result :=
  if (s.ch ch).len < s.cfg.capacity ch then
    andThen (s.memWrite ch (s.ch ch).len b) fun s =>
      .next (s.setCh ch (Channel.touch { s.ch ch with len := (s.ch ch).len + 1 } s.now))
  else
    .next (s.setCh ch (Channel.touch (Channel.setOverflow (s.ch ch)) s.now))

/-- The effect of ADD (R91): a byte for a channel that is not receivable was never received, and only `PHASE`
changes. -/
def addEffect (ch : Chan) (b : Byte) (s : State) : Result :=
  if s.receivable ch then accumulate ch b (s.setPhase .poll) else .next (s.setPhase .poll)

/-- ADD (R91). -/
def execAdd (ch : Chan) (b : Byte) (s : State) : Result := perform (.add ch b) s (addEffect ch b)

end Sys2Proof.Machine
end

