-- ==== Sys2Proof/Machine/Arbitration.lean ====
section
/-! DEFINITION. The time-slice arbiter: ARB and FSW (R110 to R115). -/

namespace Sys2Proof.Machine

/-- Use the arbiter registers, which exist under `Shared` (R33). -/
def withArbiter (s : State) (f : Arbiter → State) : Result :=
  match s.arb with
  | none => .fault .arbiterAbsent
  | some a => .next (f a)

/-- The effect of ARB (R110): switch when the slice has elapsed. -/
def arbEffect (s : State) : Result :=
  withArbiter s fun a => (if s.sliceElapsed a then s.setArb (a.switch s.now) else s).setPhase .ctrl

/-- The effect of FSW (R112): switch regardless of the slice. -/
def fswEffect (s : State) : Result := withArbiter s fun a => (s.setArb (a.switch s.now)).setPhase .ctrl

/-- ARB (R110). -/
def execArb (s : State) : Result := perform .arb s arbEffect

/-- FSW (R112). -/
def execFsw (s : State) : Result := perform .fsw s fswEffect

end Sys2Proof.Machine
end

