-- ==== Sys2Proof/Machine/Reconfiguration.lean ====
section
/-! DEFINITION. The discard at a reconfiguration: DISCARD (R130 to R133). -/

namespace Sys2Proof.Machine

/-- The effect of DISCARD (R130): both buffers cleared, nothing emitted, nothing scanned. -/
def discardEffect (s : State) : Result :=
  let s := s.setCh .m (s.ch .m).clear
  let s := s.setCh .d (s.ch .d).clear
  .next (s.setPhase .ctrl)

/-- DISCARD (R130). -/
def execDiscard (s : State) : Result := perform .discard s discardEffect

end Sys2Proof.Machine
end

