-- ==== Sys2Proof/Machine/Scanner.lean ====
section
/-! DEFINITION. The known-packet scanner and its checksum (R120 to R126). -/

namespace Sys2Proof.Machine

/-- `chk(f, i, L)` (R122): the sum of the `L-1` bytes from offset `i` on, modulo 256. -/
def chk (f : List Byte) (i len : Nat) : Byte :=
  BitVec.ofNat 8 (((f.drop i).take (len - 1)).map BitVec.toNat).sum

/-- The test of one offset (R121): the start byte, then the checksum against the window's last byte. -/
def packetAt (f : List Byte) (start : Byte) (len i : Nat) : Bool :=
  decide (f[i]? = some start) && decide (f[i + len - 1]? = some (chk f i len))

/-- What the loop of R121 found, and the work it did for it (R125): offsets tried, and bytes added. -/
structure ScanRun where
  found : Option Nat
  tried : Nat
  added : Nat
deriving DecidableEq, Repr

/-- The bytes a try of offset `i` adds: the checksum is computed only at an offset that holds the start byte (R121). -/
def addedAt (f : List Byte) (start : Byte) (len i : Nat) : Nat := if f[i]? = some start then len - 1 else 0

/-- The loop of R121, counting its work: `tries` offsets are left, the next one is `i`. -/
def scanFrom (f : List Byte) (start : Byte) (len : Nat) : Nat → Nat → ScanRun
  | 0, _ => { found := none, tried := 0, added := 0 }
  | tries + 1, i =>
    if packetAt f start len i then { found := some i, tried := 1, added := addedAt f start len i }
    else
      { found := (scanFrom f start len tries (i + 1)).found
        tried := (scanFrom f start len tries (i + 1)).tried + 1
        added := (scanFrom f start len tries (i + 1)).added + addedAt f start len i }

/-- The loop of R121 over a whole frame: `i + L <= len(f)` holds for the offsets below `len(f) + 1 - L`. -/
def scanRun (f : List Byte) (start : Byte) (len : Nat) : ScanRun := scanFrom f start len (f.length + 1 - len) 0

/-- `scan(f, {START, L})` (R121). -/
def scan (f : List Byte) (start : Byte) (len : Nat) : Option Nat := (scanRun f start len).found

/-- `scan_and_report(c, f)` (R124): at most one `KnownPacket` record, none when `KPS(c) = none` or nothing matches. -/
def scanAndReport (c : Chan) (f : List Byte) (s : State) : State :=
  match s.cfg.kps c with
  | none => s
  | some k =>
    match scan f k.start k.plen with
    | none => s
    | some i => s.emit (.knownPacket c i ((f.drop i).take k.plen))

end Sys2Proof.Machine
end

