-- ==== Sys2Proof/Machine/Segmenter.lean ====
section
/-! DEFINITION. The silence-gap segmenter: TICK (R100 to R105). -/

namespace Sys2Proof.Machine

/-- `flush(c)` (R101): the frame event, then the scan of the frame, then the clear (R123). -/
def flush (c : Chan) (s : State) : Result :=
  match s.frame c with
  | .error e => .fault e
  | .ok f =>
    let s := s.emit (.frameCompleted c (s.ch c).ovf (s.ch c).len f)
    let s := scanAndReport c f s
    .next (s.setCh c (s.ch c).clear)

/-- One channel's turn in a TICK (R100): flushed when it is due, else left alone. -/
def channelTurn (c : Chan) (s : State) : Result := if s.due c then flush c s else .next s

/-- `PHASE` after TICK (R31, R100). -/
def phaseAfterTick : RxModel → Phase
  | .shared => .arb
  | .dedicated => .ctrl

/-- The effect of TICK (R100): channel M, then channel D (R104), then the phase. -/
def tickEffect (s : State) : Result :=
  andThen (channelTurn .m s) fun s =>
    andThen (channelTurn .d s) fun s =>
      .next (s.setPhase (phaseAfterTick s.cfg.rxModel))

/-- TICK (R100). -/
def execTick (s : State) : Result := perform .tick s tickEffect

end Sys2Proof.Machine
end

