-- ==== Sys2Proof/Machine/Dispatch.lean ====
section
/-! DEFINITION. One arm per operation. -/

namespace Sys2Proof.Machine

def exec (i : Instr) (s : State) : Host.Outcome State Fault Refusal :=
  match i with
  | .add ch b => Sys2Proof.Machine.execAdd ch b s
  | .tick => Sys2Proof.Machine.execTick s
  | .arb => Sys2Proof.Machine.execArb s
  | .fsw => Sys2Proof.Machine.execFsw s
  | .discard => Sys2Proof.Machine.execDiscard s

end Sys2Proof.Machine
end

