-- ==== Sys2Proof/Machine/Fetch.lean ====
section
/-! DEFINITION. What the block does with a presented word, and how a word comes to be presented. -/

namespace Sys2Proof.Machine

/-- Decode and perform a word (R72). A reserved word is refused first of all (R71, R147); once a refusal stands,
nothing has any effect (R146). -/
def present (w : Word) (s : State) : Result :=
  match decode w with
  | .op i => exec i s
  | .reserved => .next (s.refuse .reservedEncoding w)

/-- Make `w` the word the host presents next, at the time last sampled. -/
def State.presentNext (s : State) (w : Word) : State := { s with input := .op w s.now :: s.input }

end Sys2Proof.Machine
end

