-- ==== Sys2Proof/Machine/Step.lean ====
section
/-! DEFINITION. One step: the block takes what the host presents (R36). -/

namespace Sys2Proof.Machine

/-- One step consumes one stimulus. A step with nothing presented is one with `OP_VALID = 0`, which changes nothing
(R36 (a), R157). -/
def step (s : State) : Host.Outcome State Fault Refusal :=
  match s.input with
  | [] => .next s
  | .idle :: rest => .next (s.skip rest)
  | .reset t bytes :: rest => .next (s.restart t bytes rest)
  | .op w t :: rest => present w (s.sample t rest)

/-- `s` with the table word `w` of `nbits` bits as what the host presents next (assumption log 9). -/
def State.withFetchWord (s : State) (nbits w : Nat) : State := s.presentNext (wordOfTable nbits w)

end Sys2Proof.Machine
end

