-- ==== Sys2Proof/Machine/Pseudo.lean ====
section
/-! DEFINITION. Host programs: the pseudo-operations CYCLE and RECONFIG (R83, R84), cycles in general (R170), and the
start of a run (R173). -/

namespace Sys2Proof.Machine

/-- The operation `i` presented at time `t` (R82). -/
def Stimulus.ofInstr (i : Instr) (t : Nat) : Stimulus := .op (encode i) t

/-- The bytes of one channel, in delivery order, all at time `t`. -/
def addAll (c : Chan) (t : Nat) (bs : List Byte) : List Stimulus := bs.map fun b => .ofInstr (.add c b) t

/-- `CYCLE @t { M: ms ; D: ds }` (R83). -/
def cycle (rx : RxModel) (t : Nat) (ms ds : List Byte) : List Stimulus :=
  addAll .m t ms ++ addAll .d t ds ++ .ofInstr .tick t ::
    match rx with
    | .shared => [.ofInstr .arb t]
    | .dedicated => []

/-- `RECONFIG` (R84): one DISCARD; its time is ignored (R66). -/
def reconfig (t : Nat) : List Stimulus := [.ofInstr .discard t]

/-- A command of step (a) (R170). -/
inductive Command where
  | discard
  | fsw
deriving DecidableEq, Repr

/-- The operation of a command. -/
def Command.instr : Command → Instr
  | .discard => .discard
  | .fsw => .fsw

/-- One cycle as a host that keeps the order of R170 presents it: commands, received bytes, one TICK, and one ARB under
`Shared`, each with a time of its own. -/
structure HostCycle where
  commands : List (Command × Nat)
  bytes    : List (Chan × Byte × Nat)
  tickAt   : Nat
  arbAt    : Nat
deriving DecidableEq, Repr

/-- The stream of a cycle under a receiver model (R30, R31, R170). -/
def HostCycle.stream (rx : RxModel) (k : HostCycle) : List Stimulus :=
  (k.commands.map fun p => Stimulus.ofInstr p.1.instr p.2) ++
    (k.bytes.map fun p => Stimulus.ofInstr (.add p.1 p.2.1) p.2.2) ++
    .ofInstr .tick k.tickAt ::
    match rx with
    | .shared => [.ofInstr .arb k.arbAt]
    | .dedicated => []

/-- The block at reset release at time `t` with the parameters `cfg` and these bytes in its buffers, and what the host
will present (R162, R173). -/
def State.boot (cfg : Config) (t : Nat) (bytes : Contents) (ops : List Stimulus) : State :=
  { State.resetOf cfg t bytes with input := ops }

end Sys2Proof.Machine
end

