-- ==== Sys2Proof/Machine/Assembler.lean ====
section
/-! DEFINITION. The textual form of an operation (R82): a line read into an operation and its time. Characters are
held in lists. -/

namespace Sys2Proof.Machine

/-- A line of text: an operation, and the time written after `@`; DISCARD is written with no time (R82). -/
structure AsmLine where
  instr : Instr
  now   : Option Nat
deriving DecidableEq, Repr

/-- Cut a line at spaces and commas; `cur` is the word being read, last character first. -/
def asmWords (cur : List Char) : List Char → List (List Char)
  | [] => if cur = [] then [] else [cur.reverse]
  | c :: rest =>
    if c = ' ' ∨ c = ',' then
      if cur = [] then asmWords [] rest else cur.reverse :: asmWords [] rest
    else asmWords (c :: cur) rest

/-- The value of a digit in a base of at most 16. -/
def digitOf (base : Nat) (c : Char) : Option Nat :=
  let v :=
    if '0' ≤ c ∧ c ≤ '9' then c.toNat - '0'.toNat
    else if 'a' ≤ c ∧ c ≤ 'f' then c.toNat - 'a'.toNat + 10
    else if 'A' ≤ c ∧ c ≤ 'F' then c.toNat - 'A'.toNat + 10
    else 16
  if v < base then some v else none

/-- Digits, most significant first, after the digits already read. -/
def numberFrom (base : Nat) : Nat → List Char → Option Nat
  | acc, [] => some acc
  | acc, c :: rest =>
    match digitOf base c with
    | some v => numberFrom base (acc * base + v) rest
    | none => none

/-- A number: `0x` and hexadecimal digits, or decimal digits (R14, R82). -/
def asmNumber : List Char → Option Nat
  | [] => none
  | '0' :: 'x' :: c :: rest => numberFrom 16 0 (c :: rest)
  | cs => numberFrom 10 0 cs

/-- `<ch>`: `M` or `D`, with the aliases `A` and `B` (R12, R82). -/
def asmChan : List Char → Option Chan
  | ['M'] => some .m
  | ['A'] => some .m
  | ['D'] => some .d
  | ['B'] => some .d
  | _ => none

/-- `<byte>`: a number 0..255 (R82). -/
def asmByte (cs : List Char) : Option Byte :=
  match asmNumber cs with
  | some n => if n < 256 then some (BitVec.ofNat 8 n) else none
  | none => none

/-- `@<now>`: a decimal number (R82). -/
def asmTime : List Char → Option Nat
  | '@' :: c :: rest => numberFrom 10 0 (c :: rest)
  | _ => none

/-- The operands of a line after its mnemonic (R82). -/
def asmOperands (mnemonic : List Char) (args : List (List Char)) : Option AsmLine :=
  match args with
  | [] => if mnemonic = ['D', 'I', 'S', 'C', 'A', 'R', 'D'] then some { instr := .discard, now := none } else none
  | [t] =>
    match asmTime t with
    | none => none
    | some n =>
      if mnemonic = ['T', 'I', 'C', 'K'] then some { instr := .tick, now := some n }
      else if mnemonic = ['A', 'R', 'B'] then some { instr := .arb, now := some n }
      else if mnemonic = ['F', 'S', 'W'] then some { instr := .fsw, now := some n }
      else none
  | [c, b, t] =>
    match asmChan c, asmByte b, asmTime t with
    | some ch, some v, some n =>
      if mnemonic = ['A', 'D', 'D'] then some { instr := .add ch v, now := some n } else none
    | _, _, _ => none
  | _ => none

/-- One line of text (R82); mnemonics are case-insensitive. -/
def assemble (line : List Char) : Option AsmLine :=
  match asmWords [] line with
  | [] => none
  | mnemonic :: args => asmOperands (mnemonic.map Char.toUpper) args

/-- What a line presents; a DISCARD's time is ignored, so any will do (R66). -/
def AsmLine.stimulus (l : AsmLine) : Stimulus := .ofInstr l.instr (l.now.getD 0)

end Sys2Proof.Machine
end

