-- ==== Sys2Proof/Machine/Ports.lean ====
section
/-! DEFINITION. The block's outputs and what the host observes (R37, R38, R42). -/

namespace Sys2Proof.Machine

/-- `RXEN[c]` (R37 (a), R90). -/
def State.rxen (s : State) (c : Chan) : Bool := s.receivable c

/-- `ACTIVE_OUT` (R37 (b)): the value of `ACTIVE`; the output does not exist under `Dedicated` (R33). -/
def State.activeOut (s : State) : Option Chan :=
  match s.cfg.rxModel with
  | .dedicated => none
  | .shared => s.arb.map Arbiter.active

/-- The outputs other than events after an operation (R37). -/
structure Outputs where
  rxenM     : Bool
  rxenD     : Bool
  activeOut : Option Chan
deriving DecidableEq, Repr

/-- The outputs of a state (R37). -/
def State.outputs (s : State) : Outputs :=
  { rxenM := s.rxen .m, rxenD := s.rxen .d, activeOut := s.activeOut }

/-- The observation of a run (R42). -/
structure Observation where
  evt     : List Event
  outputs : List Outputs
  refused : Bool
deriving DecidableEq, Repr

/-- The outputs observed since the last reset release, `s'` being the state after one more step from `s`: R42 takes them
after each operation, so an idle step adds none, and a reset begins a run anew (R161, R173). -/
def State.observed (s s' : State) (outs : List Outputs) : List Outputs :=
  match s.input with
  | [] => outs
  | .idle :: _ => outs
  | .reset _ _ :: _ => []
  | .op _ _ :: _ => outs ++ [s'.outputs]

/-- The observation after the next `k` steps, where `outs` was observed of the run before them; steps that stop have
none. -/
def observeFrom (outs : List Outputs) : Nat → State → Option Observation
  | 0, s => some { evt := s.evt, outputs := outs, refused := s.refused.isSome }
  | k + 1, s =>
    match step s with
    | .next s' => observeFrom (s.observed s' outs) k s'
    | .fault _ => none
    | .refused _ => none

/-- The observation of the run that the next `k` steps make, or of its part since the last reset release among them
(R42, R173). -/
def observe (k : Nat) (s : State) : Option Observation := observeFrom [] k s

end Sys2Proof.Machine
end

