-- ==== Sys2Proof/Safety.lean ====
section
/-! DEFINITION. The terms claims are stated in: the invariants of the machine, what the next step does, the traces of
a run, what the host cannot observe, and the host duties that are premises. -/

namespace Sys2Proof.Machine

/-! ## What the rules say, written for claims -/

/-- R31's table: the phase after an operation presented in a phase, where it is legal. -/
def phaseRule (rx : RxModel) : Instr → Phase → Option Phase
  | .discard, .ctrl => some .ctrl
  | .fsw, .ctrl => some .ctrl
  | .add _ _, .ctrl => some .poll
  | .add _ _, .poll => some .poll
  | .tick, .ctrl => some (if rx = .shared then .arb else .ctrl)
  | .tick, .poll => some (if rx = .shared then .arb else .ctrl)
  | .arb, .arb => some .ctrl
  | _, _ => none

/-- R146's table in the order of R147: why the word `w` is refused, if it is. -/
def refusalRule (rx : RxModel) (p : Phase) (w : Word) : Option Reason :=
  match decode w with
  | .reserved => some .reservedEncoding
  | .op i =>
    if (i = .arb ∨ i = .fsw) ∧ rx = .dedicated then some .notInConfiguration
    else if phaseRule rx i p = none then some .outOfPhase
    else none

/-- Channel `c` is non-empty and its gap has elapsed, `(now - LAST[c]) mod 2^TIME_WIDTH >= GAP_THRESHOLD` (R100,
R102). -/
def State.GapDue (s : State) (c : Chan) : Prop :=
  0 < (s.ch c).len ∧ (s.cfg.gapThreshold : Int) ≤ ((s.now : Int) - (s.ch c).last) % (2 : Int) ^ s.cfg.timeWidth

/-- The window of `L` bytes at offset `i` is a known packet (R78, R121, R122). -/
def PacketAt (f : List Byte) (start : Byte) (len i : Nat) : Prop :=
  i + len ≤ f.length ∧ f[i]? = some start ∧
    f[i + len - 1]? = some (BitVec.ofNat 8 (((f.drop i).take (len - 1)).map BitVec.toNat).sum)

/-- The known-packet records of a scan of the frame `f` of channel `c` (R124). -/
def scanEvents (cfg : Config) (c : Chan) (f : List Byte) : List Event :=
  match cfg.kps c with
  | none => []
  | some k =>
    match scan f k.start k.plen with
    | none => []
    | some i => [.knownPacket c i ((f.drop i).take k.plen)]

/-- The records of a flush of channel `c` whose frame is `f`, in their order (R101). -/
def flushEvents (c : Chan) (f : List Byte) (s : State) : List Event :=
  .frameCompleted c (s.ch c).ovf (s.ch c).len f :: scanEvents s.cfg c f

/-! ## Invariants -/

/-- One channel's registers are as the spec says they always are, for a capacity and a time width. -/
structure Channel.Ok (cap width : Nat) (x : Channel) : Prop where
  /-- R26 -/
  len_le : x.len ≤ cap
  /-- R27 -/
  ovf_full : x.ovf = true → x.len = cap
  /-- the storage is in its one form -/
  buf_wf : Memory.wf x.buf
  /-- no byte lies outside `0 .. CAPACITY - 1` (R53) -/
  inside : ∀ cell ∈ x.buf, cell.1 < cap
  /-- `LAST` is a `TIME_WIDTH`-bit value (R25) -/
  last_lt : x.last < 2 ^ width

/-- An event record has the fields R80 and R81 give it, within their ranges. -/
def Event.Ok (cfg : Config) : Event → Prop
  | .frameCompleted ch ovf n bytes =>
    bytes.length = n ∧ 1 ≤ n ∧ n ≤ cfg.capacity ch ∧ (ovf = true → n = cfg.capacity ch)
  | .knownPacket ch offset bytes =>
    ∃ k, cfg.kps ch = some k ∧ bytes.length = k.plen ∧ offset + k.plen ≤ cfg.capacity ch ∧
      bytes.head? = some k.start ∧
      bytes.getLast? = some (BitVec.ofNat 8 (bytes.dropLast.map BitVec.toNat).sum)

/-- What holds of the machine in every reachable state. -/
structure State.Inv (s : State) : Prop where
  /-- the parameters are in their ranges (R6 to R10) -/
  cfg_wf : s.cfg.wf = true
  /-- both channels (R22 to R27) -/
  chan : ∀ c, Channel.Ok (s.cfg.capacity c) s.cfg.timeWidth (s.ch c)
  /-- the arbiter registers exist exactly under `Shared` (R33) -/
  arb_iff : s.arb.isSome = true ↔ s.cfg.rxModel = .shared
  /-- `LSW` is a `TIME_WIDTH`-bit value (R29) -/
  lsw_lt : ∀ a, s.arb = some a → a.lsw < 2 ^ s.cfg.timeWidth
  /-- the phase `ARB` is held under `Shared` only (R30) -/
  phase_arb : s.phase = .arb → s.cfg.rxModel = .shared
  /-- the sampled time is a `TIME_WIDTH`-bit value (R36) -/
  now_lt : s.now < 2 ^ s.cfg.timeWidth
  /-- the event output holds well-formed records only (R80, R81) -/
  events : ∀ e ∈ s.evt, Event.Ok s.cfg e

/-- A refusal mark says why its word had to be refused (R146), with the reason that comes first in the order of R147,
and the phase has not moved since. -/
def State.MarkTrue (s : State) : Prop :=
  ∀ m, s.refused = some m →
    m.phase = s.phase ∧
    match m.reason with
    | .reservedEncoding => decode m.word = .reserved
    | .notInConfiguration => s.cfg.rxModel = .dedicated ∧ (m.word = 0x3000#16 ∨ m.word = 0x4000#16)
    | .outOfPhase =>
      ∃ i, decode m.word = .op i ∧ i.inInterface s.cfg.rxModel = true ∧ phaseRule s.cfg.rxModel i m.phase = none

/-! ## What the next step does -/

/-- The operation the next step performs, and the state in which it does: the word presented passes every check of
R72. -/
def State.performs (s : State) : Option (Instr × State) :=
  match s.input with
  | .op w t :: rest =>
    match decode w with
    | .op i =>
      if s.refused = none ∧ (s.sample t rest).check i = none then some (i, s.sample t rest) else none
    | .reserved => none
  | _ => none

/-- The next step is a reset release (R160). -/
def State.resetNext (s : State) : Bool :=
  match s.input with
  | .reset _ _ :: _ => true
  | _ => false

/-- The byte of channel `c` the next step receives, if it receives one (R90, R91). -/
def State.receives (s : State) (c : Chan) : List Byte :=
  match s.performs with
  | some (.add c' b, s') => if c' = c ∧ s'.receivable c = true then [b] else []
  | _ => []

/-- The next step flushes channel `c` (R100). -/
def State.flushes (s : State) (c : Chan) : Bool :=
  match s.performs with
  | some (.tick, s') => s'.due c
  | _ => false

/-- The next step clears channel `c`: a flush, a DISCARD, or a reset (R23). -/
def State.clears (s : State) (c : Chan) : Bool :=
  s.resetNext ||
    match s.performs with
    | some (.tick, s') => s'.due c
    | some (.discard, _) => true
    | _ => false

/-! ## Traces of a run -/

/-- `k` steps, stopping at a stop (R173): `Host.Core.run` of the machine, as `run_eq_core` says. -/
def run : Nat → State → Result
  | 0, s => .next s
  | k + 1, s => andThen (step s) (run k)

/-- The bytes channel `c` receives in the next `k` steps, in order. -/
def received (c : Chan) : Nat → State → List Byte
  | 0, _ => []
  | k + 1, s =>
    match step s with
    | .next s' => s.receives c ++ received c k s'
    | .fault _ => []
    | .refused _ => []

/-- None of the next `k` steps clears channel `c`. -/
def unclearedFor (c : Chan) : Nat → State → Bool
  | 0, _ => true
  | k + 1, s =>
    match step s with
    | .next s' => !s.clears c && unclearedFor c k s'
    | .fault _ => true
    | .refused _ => true

/-- How many of the next `k` steps change `ACTIVE` (R114). -/
def switches : Nat → State → Nat
  | 0, _ => 0
  | k + 1, s =>
    match step s with
    | .next s' => (if s'.arb.map Arbiter.active = s.arb.map Arbiter.active then 0 else 1) + switches k s'
    | .fault _ => 0
    | .refused _ => 0

/-- The `FrameCompleted` records of channel `c`, in order. -/
def framesOf (c : Chan) (evt : List Event) : List Event :=
  evt.filter fun e => decide (e.kind = 0#1 ∧ e.channel = c)

/-- The records of channel `c`, in order. -/
def eventsOf (c : Chan) (evt : List Event) : List Event := evt.filter fun e => decide (e.channel = c)

/-- The true time of the last write of `LSW` (R29), one step on: `t` was it before. -/
def State.switchTime (s s' : State) (t : Nat) : Nat :=
  match s.input with
  | .op _ n :: _ => if s'.arb.map Arbiter.active = s.arb.map Arbiter.active then t else n
  | .reset n _ :: _ => n
  | .idle :: _ => t
  | [] => t

/-- The true time of the last switch after the next `k` steps, where it was `t` before them: every switch changes
`ACTIVE` (R114), and a reset starts the first slice (R29). -/
def lastSwitch (t : Nat) : Nat → State → Nat
  | 0, _ => t
  | k + 1, s =>
    match step s with
    | .next s' => lastSwitch (s.switchTime s' t) k s'
    | .fault _ => t
    | .refused _ => t

/-- The true time of the last byte received on `c`, one step on: `t` was it before. -/
def State.byteTime (s : State) (c : Chan) (t : Nat) : Nat :=
  match s.input with
  | .op _ n :: _ => if s.receives c = [] then t else n
  | .reset _ _ :: _ => t
  | .idle :: _ => t
  | [] => t

/-- The true time of the last byte channel `c` received by the end of the next `k` steps, where it was `t` before
them. -/
def lastByte (c : Chan) (t : Nat) : Nat → State → Nat
  | 0, _ => t
  | k + 1, s =>
    match step s with
    | .next s' => lastByte c (s.byteTime c t) k s'
    | .fault _ => t
    | .refused _ => t

/-! ## Comparing states -/

/-- `f` is the sequence `BUF[c][0 .. LEN[c]-1]` (R17). -/
def State.IsFrame (s : State) (c : Chan) (f : List Byte) : Prop :=
  f.length = (s.ch c).len ∧ ∀ i, i < f.length → f[i]? = some (s.readByte c i)

/-- Two channels that differ at most in what R40 (b) calls never observable: `BUF` from `LEN` on, and `LAST` while
`LEN = 0`. -/
def Channel.Alike (x y : Channel) : Prop :=
  x.len = y.len ∧ x.ovf = y.ovf ∧ (0 < x.len → x.last = y.last) ∧
    ∀ i, i < x.len → Memory.read x.buf i = Memory.read y.buf i

/-- A stimulus with the buffer contents of a reset taken out. -/
def Stimulus.withoutContents : Stimulus → Stimulus
  | .idle => .idle
  | .reset t _ => .reset t Contents.blank
  | .op w t => .op w t

/-- Two states that differ at most in what R40 (b) calls never observable, and in what the resets to come leave in the
buffers. -/
def State.Alike (s t : State) : Prop :=
  s.cfg = t.cfg ∧ s.arb = t.arb ∧ s.phase = t.phase ∧ s.refused = t.refused ∧ s.evt = t.evt ∧ s.now = t.now ∧
    s.input.map Stimulus.withoutContents = t.input.map Stimulus.withoutContents ∧
    ∀ c, Channel.Alike (s.ch c) (t.ch c)

/-- A stimulus with the received byte of an ADD, and the buffer contents of a reset, taken out. -/
def Stimulus.withoutByte : Stimulus → Stimulus
  | .idle => .idle
  | .reset t _ => .reset t Contents.blank
  | .op w t =>
    match decode w with
    | .op (.add c _) => .op (encode (.add c 0#8)) t
    | _ => .op w t

/-- Two states that agree on all the arbiter may depend on (R113): not on buffers, lengths or received bytes. -/
def State.SameArbitration (s t : State) : Prop :=
  s.cfg = t.cfg ∧ s.arb = t.arb ∧ s.phase = t.phase ∧ s.refused.isSome = t.refused.isSome ∧ s.now = t.now ∧
    s.input.map Stimulus.withoutByte = t.input.map Stimulus.withoutByte

/-! ## Host duties -/

/-- The true times of the operations a host presents are non-decreasing (R171). -/
def timesOf : List Stimulus → List Nat
  | [] => []
  | .idle :: rest => timesOf rest
  | .op _ t :: rest => t :: timesOf rest
  | .reset t _ :: rest => t :: timesOf rest

/-- The time duty of R171. -/
abbrev TimeDuty (ops : List Stimulus) : Prop := (timesOf ops).Pairwise (· ≤ ·)

/-- The true times of the words that are the operation `i`. -/
def timesOfOp (i : Instr) : List Stimulus → List Nat
  | [] => []
  | .idle :: rest => timesOfOp i rest
  | .op w t :: rest => if decode w = .op i then t :: timesOfOp i rest else timesOfOp i rest
  | .reset _ _ :: rest => timesOfOp i rest

/-- The longest interval that R166 allows: `2^TIME_WIDTH - max(GAP_THRESHOLD, TIMESLICE)`. -/
def aliasBound (cfg : Config) : Nat := 2 ^ cfg.timeWidth - max cfg.gapThreshold cfg.timeslice

/-- The aliasing duty of R166, for a reset released at time `t`: between consecutive TICKs, and between consecutive
ARBs or the reset and the first ARB. (From an FSW to the next ARB lies inside one of these, by the time duty.) -/
def AliasDuty (cfg : Config) (t : Nat) (ops : List Stimulus) : Prop :=
  (timesOfOp .tick ops).IsChain (fun a b => b ≤ a + aliasBound cfg) ∧
    (t :: timesOfOp .arb ops).IsChain (fun a b => b ≤ a + aliasBound cfg)

/-- A run that claims cover (R173): the operations `ops` presented from one reset release, at time `t` and with any
contents of the buffers, ending in the state `s` with `REFUSED = none` (R146), under every duty of R170 and R162 that
the model's terms can say. The rest of them is about what the block cannot see: the receivers (R162 (3), R165, that an
ADD's byte was really delivered) and the traffic (R164). -/
structure SafeRun (cfg : Config) (t : Nat) (bytes : Contents) (ops : List Stimulus) (s : State) : Prop where
  /-- every parameter is fixed within its range (R162 (1)) -/
  parameters : cfg.wf = true
  /-- a run is of one reset release (R173) -/
  one_reset : ∀ x ∈ ops, ∀ n b, x ≠ .reset n b
  /-- the time duty, from the release on (R162 (2), R171) -/
  times : TimeDuty (.reset t bytes :: ops)
  /-- the aliasing duty (R166) -/
  aliasing : AliasDuty cfg t ops
  /-- the run comes to its end -/
  ends : run ops.length (State.boot cfg t bytes ops) = .next s
  /-- and nothing was refused in it: the duties the block checks were kept (R146) -/
  unrefused : s.refused = none

end Sys2Proof.Machine
end

