-- ==== Sys2Proof/Certificates/Slice0/Obligations.lean ====
section
/-! DEFINITION. The statements for the provers. Each is about every state, hence about every value of the parameters,
unless its hypotheses say otherwise. -/

open Sys2Proof Sys2Proof.Machine

/-! ## Encoding -/

/-- Words written out bit by bit from R69 and R71 (vectors E1 to E10 of `95_test_vectors.md`). Sanity. -/
def Obligations.WordsOfTheSpecDecode : Prop :=
  decode 0b0001000001000011#16 = .op (.add .m 0x43#8) ∧
  decode 0b0001000101000011#16 = .op (.add .d 0x43#8) ∧
  decode 0b0001000011111111#16 = .op (.add .m 0xFF#8) ∧
  decode 0b0010000000000000#16 = .op .tick ∧
  decode 0b0011000000000000#16 = .op .arb ∧
  decode 0b0100000000000000#16 = .op .fsw ∧
  decode 0b0101000000000000#16 = .op .discard ∧
  decode 0b0001001001000011#16 = .reserved ∧
  decode 0b0010000000000001#16 = .reserved ∧
  decode 0b0110000000000000#16 = .reserved

/-- Decode of encode, for every operation with every operand (R65, R69, R72). -/
def Obligations.DecodingAnEncodingGivesTheOperation : Prop := ∀ i, decode (encode i) = .op i

/-- Each word has one meaning: a word that decodes to an operation is that operation's encoding (R65, R69). -/
def Obligations.EveryDecodedWordIsTheEncoding : Prop := ∀ w i, decode w = .op i → encode i = w

/-- R69: a word selects the operation of a row when `w AND mask = match`, with the operands R65 names (the
word is the spec's own decision, D14). -/
def Obligations.RowsSelectTheirOperation : Prop :=
  ∀ w : Word,
    (w &&& 0xFE00#16 = 0x1000#16 ↔
      decode w = .op (.add (if w.getLsbD 8 = true then .d else .m) (BitVec.ofNat 8 w.toNat))) ∧
    (w &&& 0xFFFF#16 = 0x2000#16 ↔ decode w = .op .tick) ∧
    (w &&& 0xFFFF#16 = 0x3000#16 ↔ decode w = .op .arb) ∧
    (w &&& 0xFFFF#16 = 0x4000#16 ↔ decode w = .op .fsw) ∧
    (w &&& 0xFFFF#16 = 0x5000#16 ↔ decode w = .op .discard)

/-- R71: the words that match no row are reserved, and presenting one is refused as `ReservedEncoding`
(a refusal is a next state with the spec's own mark, D15, assumption log 4). -/
def Obligations.ReservedWordsAreRefused : Prop :=
  (∀ w : Word, decode w = .reserved ↔
    ∀ row ∈ [(0x1000#16, 0xFE00#16), (0x2000#16, 0xFFFF#16), (0x3000#16, 0xFFFF#16), (0x4000#16, 0xFFFF#16),
      (0x5000#16, 0xFFFF#16)], w &&& row.2 ≠ row.1) ∧
  (∀ w : Word, w.toNat / 4096 = 0 ∨ 6 ≤ w.toNat / 4096 → decode w = .reserved) ∧
  (∀ w : Word, w.toNat / 4096 = 1 → w.toNat / 512 % 8 ≠ 0 → decode w = .reserved) ∧
  (∀ w : Word, 2 ≤ w.toNat / 4096 → w.toNat / 4096 ≤ 5 → w.toNat % 4096 ≠ 0 → decode w = .reserved) ∧
  (∀ (s : State) (w : Word) (t : Nat) (rest : List Stimulus),
    s.input = .op w t :: rest → decode w = .reserved → s.refused = none →
      step s = .next { s with
        now := t % 2 ^ s.cfg.timeWidth
        input := rest
        refused := some { reason := .reservedEncoding, word := w, phase := s.phase } })

/-! ## One step -/

/-- A step runs the decoded operation with the presented time sampled (R36, R66, R72). -/
def Obligations.StepRunsTheDecodedOperation : Prop :=
  ∀ (s : State) (w : Word) (t : Nat) (rest : List Stimulus) (i : Instr),
    s.input = .op w t :: rest → decode w = .op i →
      step s = exec i { s with now := t % 2 ^ s.cfg.timeWidth, input := rest }

/-- A step with `OP_VALID = 0` changes nothing: only the host's stream moves on, and with nothing presented not even
that (R36 (a), R157). That an empty stream is an idle step is the model's choice, assumption log 2. -/
def Obligations.IdleStepsChangeNothing : Prop :=
  ∀ s : State,
    (s.input = [] → step s = .next s) ∧
    (∀ rest, s.input = .idle :: rest → step s = .next { s with input := rest })

/-- What reset leaves, from any state and at any time: R115 for the arbiter, and the other values of R160 (the spec's
decisions D8 to D10), with any bytes in the buffers. That a whole reset pulse is one step, and that it names those bytes,
is the model's choice, assumption logs 8 and 5. -/
def Obligations.ResetGivesEveryElementItsResetValue : Prop :=
  ∀ (s : State) (t : Nat) (bytes : Contents) (rest : List Stimulus), s.input = .reset t bytes :: rest →
    ∃ u, step s = .next u ∧
      (∀ c, (u.ch c).len = 0 ∧ (u.ch c).ovf = false ∧ (u.ch c).last = 0) ∧
      (∀ c i, i < s.cfg.capacity c → i < (bytes.of c).length → (bytes.of c)[i]? = some (u.readByte c i)) ∧
      (s.cfg.rxModel = .shared → u.arb = some { active := s.cfg.initActive, lsw := t % 2 ^ s.cfg.timeWidth }) ∧
      (s.cfg.rxModel = .dedicated → u.arb = none) ∧
      u.phase = .ctrl ∧ u.refused = none ∧ u.evt = [] ∧ u.cfg = s.cfg ∧ u.input = rest

/-- The parameters are constants (R13). -/
def Obligations.ParametersNeverChange : Prop := ∀ s t, step s = .next t → t.cfg = s.cfg

/-! ## Refusals -/

/-- R146 with the order of R147: a word the host must not present records the first reason that applies, its word and
the phase, and changes nothing else; once a refusal stands, every operation has no effect (the spec's decisions
D15 and D29; assumption log 4). -/
def Obligations.RefusalRecordsTheFirstReason : Prop :=
  Reason.reservedEncoding.code = 1 ∧ Reason.notInConfiguration.code = 2 ∧ Reason.outOfPhase.code = 3 ∧
  ∀ (s : State) (w : Word) (t : Nat) (rest : List Stimulus), s.input = .op w t :: rest →
    (∀ r, s.refused = none → refusalRule s.cfg.rxModel s.phase w = some r →
      step s = .next { s with
        now := t % 2 ^ s.cfg.timeWidth
        input := rest
        refused := some { reason := r, word := w, phase := s.phase } }) ∧
    (∀ m, s.refused = some m →
      step s = .next { s with now := t % 2 ^ s.cfg.timeWidth, input := rest }) ∧
    (∀ u, s.refused = none → refusalRule s.cfg.rxModel s.phase w = none → step s = .next u → u.refused = none)

/-- Only a reset clears `REFUSED` (R161), and the mark that stands is the first (R32). -/
def Obligations.OnlyResetClearsTheRefusal : Prop :=
  ∀ (s t : State) (m : Mark), s.refused = some m → step s = .next t →
    (s.resetNext = false → t.refused = some m) ∧ (s.resetNext = true → t.refused = none)

/-- R70: under `Dedicated` the words of ARB and FSW are refused as `NotInConfiguration`, in every phase; under
`Shared` every operation is part of the interface (decision D16). -/
def Obligations.ArbiterOperationsNeedTheSharedModel : Prop :=
  (∀ (s : State) (i : Instr), s.cfg.rxModel = .dedicated → s.refused = none → i = .arb ∨ i = .fsw →
    exec i s = .next { s with
      refused := some { reason := .notInConfiguration, word := encode i, phase := s.phase } }) ∧
  (∀ i : Instr, i.inInterface .shared = true) ∧
  (∀ i : Instr, i.inInterface .dedicated = true ↔ i ≠ .arb ∧ i ≠ .fsw)

/-- R31: each operation of the interface is legal in the phases of the table and moves the phase as it says; in any
other phase it is refused as `OutOfPhase` and changes nothing else (decisions D2, D15). -/
def Obligations.PhaseRuleIsKept : Prop :=
  ∀ (s t : State) (i : Instr), s.refused = none → i.inInterface s.cfg.rxModel = true → exec i s = .next t →
    (∀ p, phaseRule s.cfg.rxModel i s.phase = some p → t.phase = p ∧ t.refused = none) ∧
    (phaseRule s.cfg.rxModel i s.phase = none →
      t = { s with refused := some { reason := .outOfPhase, word := encode i, phase := s.phase } })

/-! ## ADD -/

/-- R91, all cases: a byte for a channel that is not receivable changes the phase only; a received byte is stored at
`LEN` when there is room, else sets `OVF`, and writes `LAST` either way; ADD between TICK and ARB is refused. Every
byte of both buffers other than the one stored reads as before (decisions D5, D13). -/
def Obligations.AddStoresDropsOrOverflows : Prop :=
  (∀ (s : State) (ch : Chan) (b : Byte), s.refused = none → s.phase = .ctrl ∨ s.phase = .poll →
    ∃ t, exec (.add ch b) s = .next t ∧
      t.phase = .poll ∧ t.cfg = s.cfg ∧ t.arb = s.arb ∧ t.refused = s.refused ∧ t.evt = s.evt ∧ t.now = s.now ∧
      t.input = s.input ∧ (∀ c, c ≠ ch → t.ch c = s.ch c) ∧
      (¬ (s.cfg.rxModel = .dedicated ∨ s.arb.map Arbiter.active = some ch) → t.ch ch = s.ch ch) ∧
      (s.cfg.rxModel = .dedicated ∨ s.arb.map Arbiter.active = some ch →
        (t.ch ch).last = s.now ∧
        ((s.ch ch).len < s.cfg.capacity ch →
          (t.ch ch).len = (s.ch ch).len + 1 ∧ (t.ch ch).ovf = (s.ch ch).ovf ∧
          ∀ c i, t.readByte c i = if c = ch ∧ i = (s.ch ch).len then b else s.readByte c i) ∧
        (s.cfg.capacity ch ≤ (s.ch ch).len →
          (t.ch ch).len = (s.ch ch).len ∧ (t.ch ch).ovf = true ∧ ∀ c i, t.readByte c i = s.readByte c i))) ∧
  (∀ (s : State) (ch : Chan) (b : Byte), s.refused = none → s.phase = .arb →
    exec (.add ch b) s = .next { s with
      refused := some { reason := .outOfPhase, word := encode (.add ch b), phase := .arb } }) ∧
  (∀ w : Word, w.toNat / 4096 = 1 → w.toNat / 512 % 8 ≠ 0 → decode w = .reserved)

/-- Bytes beyond the capacity are lost for good: after `n` received bytes on an empty channel the buffer holds the
first `CAPACITY` of them, in order, and `OVF` says whether there were more (R92, a consequence the
spec marks as derived). -/
def Obligations.ExcessBytesAreDiscarded : Prop :=
  ∀ (s : State) (c : Chan) (bs : List (Byte × Nat)) (rest : List Stimulus),
    s.refused = none → s.phase = .ctrl ∨ s.phase = .poll → s.receivable c = true →
    (s.ch c).len = 0 → (s.ch c).ovf = false →
    s.input = (bs.map fun p => Stimulus.ofInstr (.add c p.1) p.2) ++ rest →
      ∃ t, run bs.length s = .next t ∧ t.refused = none ∧ t.evt = s.evt ∧ t.input = rest ∧
        (t.ch c).len = min bs.length (s.cfg.capacity c) ∧
        ((t.ch c).ovf = true ↔ s.cfg.capacity c < bs.length) ∧
        t.IsFrame c ((bs.map Prod.fst).take (s.cfg.capacity c)) ∧
        (∀ p, bs.getLast? = some p → (t.ch c).last = p.2 % 2 ^ s.cfg.timeWidth) ∧
        t.ch c.other = s.ch c.other

/-! ## TICK and the scanner -/

/-- R100, with R101's flush written out: TICK flushes exactly the non-empty channels whose gap has elapsed, M before D, each with its frame
record, then its known-packet record if the scan finds one, then the clear of `LEN` and `OVF`; no byte and no timestamp
is written; a TICK before the cycle's ARB is refused (decisions D3, D6, D7, D26). -/
def Obligations.TickFlushesTheDueChannels : Prop :=
  (∀ (s : State) (fm fd : List Byte) (dueM dueD : Bool), s.refused = none → s.phase = .ctrl ∨ s.phase = .poll →
    s.IsFrame .m fm → s.IsFrame .d fd → (∀ c, (s.ch c).len ≤ s.cfg.capacity c) →
    (dueM = true ↔ s.GapDue .m) → (dueD = true ↔ s.GapDue .d) →
      ∃ t, exec .tick s = .next t ∧
        t.evt = s.evt ++ (if dueM then flushEvents .m fm s else []) ++ (if dueD then flushEvents .d fd s else []) ∧
        t.ch .m = (if dueM then { s.ch .m with len := 0, ovf := false } else s.ch .m) ∧
        t.ch .d = (if dueD then { s.ch .d with len := 0, ovf := false } else s.ch .d) ∧
        (∀ c i, t.readByte c i = s.readByte c i) ∧
        t.phase = (if s.cfg.rxModel = .shared then .arb else .ctrl) ∧
        t.cfg = s.cfg ∧ t.arb = s.arb ∧ t.refused = s.refused ∧ t.now = s.now ∧ t.input = s.input) ∧
  (∀ s : State, s.refused = none → s.phase = .arb →
    exec .tick s = .next { s with refused := some { reason := .outOfPhase, word := 0x2000#16, phase := .arb } }) ∧
  (∀ w : Word, 0x2001 ≤ w.toNat → w.toNat ≤ 0x2FFF → decode w = .reserved)

/-- R121: the scan reports an offset exactly when a packet is there and none lies lower, and reports none exactly when
there is none. -/
def Obligations.ScanReportsTheFirstPacket : Prop :=
  ∀ (f : List Byte) (start : Byte) (len : Nat),
    (∀ i, scan f start len = some i ↔ PacketAt f start len i ∧ ∀ j, j < i → ¬ PacketAt f start len j) ∧
    (scan f start len = none ↔ ∀ i, ¬ PacketAt f start len i)

/-- The checksum equals an 8-bit accumulator that wraps at every addition (R122, marked as derived). -/
def Obligations.ChecksumIsAWrappingAccumulator : Prop :=
  ∀ (f : List Byte) (i len : Nat), chk f i len = ((f.drop i).take (len - 1)).foldl (· + ·) 0#8

/-- The scan's work, counted by the very loop that finds the packet (R125, marked as derived): it tries every offset up
to the one it reports, or every offset there is, adds `L - 1` bytes at each of them that holds the start byte, and both
numbers are bounded by the parameters. -/
def Obligations.ScanWorkIsBounded : Prop :=
  ∀ (f : List Byte) (start : Byte) (len cap : Nat), f.length ≤ cap →
    (∀ i, scan f start len = some i → (scanRun f start len).tried = i + 1) ∧
    (scan f start len = none → (scanRun f start len).tried = f.length + 1 - len) ∧
    (scanRun f start len).added
      = ((List.range (scanRun f start len).tried).countP fun j => decide (f[j]? = some start)) * (len - 1) ∧
    (scanRun f start len).tried ≤ cap + 1 - len ∧
    (scanRun f start len).added ≤ (cap + 1 - len) * (len - 1)

/-- Sampled times are compared exactly while the true time elapsed is below `2^TIME_WIDTH`: the gap test (R102) and
the slice test (R110) are then the source's own comparisons (marked as derived in R102; the modular reading is decision D3). -/
def Obligations.SampledTimesCompareExactly : Prop :=
  ∀ (s : State) (t0 t : Nat), s.now = t % 2 ^ s.cfg.timeWidth → t0 ≤ t → t - t0 < 2 ^ s.cfg.timeWidth →
    (∀ c, (s.ch c).last = t0 % 2 ^ s.cfg.timeWidth → (s.gapElapsed c = true ↔ s.cfg.gapThreshold ≤ t - t0)) ∧
    (∀ a : Arbiter, a.lsw = t0 % 2 ^ s.cfg.timeWidth → (s.sliceElapsed a = true ↔ s.cfg.timeslice ≤ t - t0))

/-- The interval of the aliasing duty keeps a comparison exact from one evaluation to the next (R166): a timestamp
that was below its threshold at one evaluation is compared exactly at the next. The duty is
the spec's own derivation. -/
def Obligations.AliasingDutyKeepsComparisonsExact : Prop :=
  ∀ (cfg : Config) (t0 d gap : Nat), cfg.wf = true → d < max cfg.gapThreshold cfg.timeslice →
    gap ≤ 2 ^ cfg.timeWidth - max cfg.gapThreshold cfg.timeslice →
      elapsed cfg.timeWidth ((t0 + d + gap) % 2 ^ cfg.timeWidth) (t0 % 2 ^ cfg.timeWidth) = d + gap

/-- A TICK repeated at the same time emits nothing for a channel that the first one flushed (R54, marked as derived);
the phase rule allows the repetition under `Dedicated`. -/
def Obligations.RepeatedTickEmitsNothingNew : Prop :=
  ∀ (s t : State), s.Inv → s.cfg.rxModel = .dedicated → s.refused = none → exec .tick s = .next t →
    ∃ u, exec .tick t = .next u ∧ u.evt = t.evt ∧ ∀ c, u.ch c = t.ch c

/-! ## ARB, FSW, DISCARD -/

/-- R110: ARB in its phase switches exactly when the slice has elapsed, recording the presented time, and changes
nothing else but the phase; elsewhere it is refused (decisions D3, D16). -/
def Obligations.ArbSwitchesWhenTheSliceHasElapsed : Prop :=
  (∀ (s : State) (a : Arbiter), s.refused = none → s.cfg.rxModel = .shared → s.phase = .arb → s.arb = some a →
    ((s.cfg.timeslice : Int) ≤ ((s.now : Int) - a.lsw) % (2 : Int) ^ s.cfg.timeWidth →
      exec .arb s = .next { s with arb := some { active := a.active.other, lsw := s.now }, phase := .ctrl }) ∧
    (((s.now : Int) - a.lsw) % (2 : Int) ^ s.cfg.timeWidth < (s.cfg.timeslice : Int) →
      exec .arb s = .next { s with phase := .ctrl })) ∧
  (∀ s : State, s.refused = none → s.cfg.rxModel = .shared → s.phase ≠ .arb →
    exec .arb s = .next { s with
      refused := some { reason := .outOfPhase, word := 0x3000#16, phase := s.phase } }) ∧
  (∀ s : State, s.refused = none → s.cfg.rxModel = .dedicated →
    exec .arb s = .next { s with
      refused := some { reason := .notInConfiguration, word := 0x3000#16, phase := s.phase } }) ∧
  (∀ w : Word, 0x3001 ≤ w.toNat → w.toNat ≤ 0x3FFF → decode w = .reserved)

/-- R112: FSW in phase `CTRL` switches whatever the time, recording it, and changes nothing else; elsewhere it is
refused (decisions D11, D16). -/
def Obligations.FswAlwaysSwitches : Prop :=
  (∀ (s : State) (a : Arbiter), s.refused = none → s.cfg.rxModel = .shared → s.phase = .ctrl → s.arb = some a →
    exec .fsw s = .next { s with arb := some { active := a.active.other, lsw := s.now }, phase := .ctrl }) ∧
  (∀ s : State, s.refused = none → s.cfg.rxModel = .shared → s.phase ≠ .ctrl →
    exec .fsw s = .next { s with
      refused := some { reason := .outOfPhase, word := 0x4000#16, phase := s.phase } }) ∧
  (∀ s : State, s.refused = none → s.cfg.rxModel = .dedicated →
    exec .fsw s = .next { s with
      refused := some { reason := .notInConfiguration, word := 0x4000#16, phase := s.phase } }) ∧
  (∀ w : Word, 0x4001 ≤ w.toNat → w.toNat ≤ 0x4FFF → decode w = .reserved)

/-- R130: DISCARD in phase `CTRL` sets `LEN` and `OVF` of both channels to 0 and changes nothing else, `BUF`, `LAST`,
`ACTIVE`, `LSW` and `EVT` among it; elsewhere it is refused (decision D12). -/
def Obligations.DiscardClearsBothChannels : Prop :=
  (∀ s : State, s.refused = none → s.phase = .ctrl →
    exec .discard s = .next { s with
      chM := { s.chM with len := 0, ovf := false }
      chD := { s.chD with len := 0, ovf := false }
      phase := .ctrl }) ∧
  (∀ s : State, s.refused = none → s.phase ≠ .ctrl →
    exec .discard s = .next { s with
      refused := some { reason := .outOfPhase, word := 0x5000#16, phase := s.phase } }) ∧
  (∀ w : Word, 0x5001 ≤ w.toNat → w.toNat ≤ 0x5FFF → decode w = .reserved)

/-- No byte received before a DISCARD shows in anything the host observes after it (R133): from two states that differ
only in the channels, every continuation after a DISCARD is observed alike. The spec marks the rule as derived. -/
def Obligations.DiscardedBytesAreNeverObserved : Prop :=
  ∀ (s : State) (t : Nat) (rest : List Stimulus) (x y : Channel), s.refused = none → s.phase = .ctrl →
    s.input = reconfig t ++ rest → ∀ k, observe k s = observe k { s with chM := x, chD := y }

/-! ## Invariants -/

/-- R37: the outputs (decision D22). -/
def Obligations.OutputsFollowTheActiveChannel : Prop :=
  ∀ s : State,
    (s.cfg.rxModel = .dedicated → s.outputs = { rxenM := true, rxenD := true, activeOut := none }) ∧
    (∀ a, s.cfg.rxModel = .shared → s.arb = some a →
      s.activeOut = some a.active ∧ ∀ c, s.rxen c = true ↔ a.active = c)

/-- Reset meets the invariant, for every value of the parameters in its range and any bytes in the buffers. -/
def Obligations.ResetMeetsTheInvariant : Prop :=
  ∀ (cfg : Config) (t : Nat) (bytes : Contents) (ops : List Stimulus), cfg.wf = true →
    (State.boot cfg t bytes ops).Inv ∧ (State.boot cfg t bytes ops).MarkTrue

/-- Every step keeps the invariant: among it `LEN <= CAPACITY` (R26), `OVF = 1` implies `LEN = CAPACITY` (R27), no byte
outside `0 .. CAPACITY - 1` (R22, R53), the storage in its one form, the arbiter
registers there exactly under `Shared` (R33), the phase `ARB` under `Shared` only (R30), and every record of `EVT` as
R80 and R81 say. R26, R27 and R53 are marked as derived; that the storage has one form is the model's choice
(assumption log 5). -/
def Obligations.EveryStepKeepsTheInvariant : Prop := ∀ s t : State, s.Inv → step s = .next t → t.Inv

/-- A step keeps the refusal mark true: it says why its word had to be refused (R146, R147). -/
def Obligations.EveryStepKeepsTheMarkTrue : Prop := ∀ s t : State, s.MarkTrue → step s = .next t → t.MarkTrue

/-- From a state that meets the invariant every operation and every step completes: no access leaves a
buffer (R53, R140; the stops that would meet are the model's, assumption logs 6 and 7). -/
def Obligations.NothingStopsInsideTheInvariant : Prop :=
  ∀ s : State, s.Inv → (∃ t, step s = .next t) ∧ ∀ i, ∃ t, exec i s = .next t

/-- Every run from every reset goes on to its end inside the invariants (R26, R27, R140, R173). -/
def Obligations.EveryRunFromResetCompletes : Prop :=
  ∀ (cfg : Config) (t : Nat) (bytes : Contents) (ops : List Stimulus) (k : Nat), cfg.wf = true →
    ∃ s, run k (State.boot cfg t bytes ops) = .next s ∧ s.Inv ∧ s.MarkTrue ∧ s.cfg = cfg

/-! ## Who writes what -/

/-- R28, R29: apart from a reset, `ACTIVE` and `LSW` are written by a performed ARB or FSW only. -/
def Obligations.OnlyArbAndFswWriteTheArbiter : Prop :=
  ∀ s t : State, step s = .next t → s.resetNext = false → t.arb ≠ s.arb →
    ∃ s', s.performs = some (.arb, s') ∨ s.performs = some (.fsw, s')

/-- R38: apart from a reset, `EVT` only grows at its end, and only a performed TICK adds to it. -/
def Obligations.OnlyTickEmits : Prop :=
  ∀ s t : State, step s = .next t → s.resetNext = false →
    ∃ new, t.evt = s.evt ++ new ∧ (new ≠ [] → ∃ s', s.performs = some (.tick, s'))

/-- R22: apart from a reset, a byte of a buffer changes only at index `LEN[c]` and only by a received ADD, which stores
its byte there. -/
def Obligations.OnlyAddWritesTheBuffer : Prop :=
  ∀ (s t : State) (c : Chan) (i : Nat), step s = .next t → s.resetNext = false →
    t.readByte c i ≠ s.readByte c i → i = (s.ch c).len ∧ ∃ b, s.receives c = [b] ∧ t.readByte c i = b

/-- R23, R24: apart from a clear, `LEN` falls never and `OVF` stays once it is set; both rise by a received ADD
only. -/
def Obligations.OnlyAClearLowersLengthOrOverflow : Prop :=
  ∀ (s t : State) (c : Chan), step s = .next t →
    (s.clears c = false → (s.ch c).len ≤ (t.ch c).len ∧ ((s.ch c).ovf = true → (t.ch c).ovf = true)) ∧
    (s.clears c = true → (t.ch c).len = 0 ∧ (t.ch c).ovf = false) ∧
    (s.receives c = [] → (t.ch c).len ≤ (s.ch c).len ∧ ((t.ch c).ovf = true → (s.ch c).ovf = true))

/-- R25: apart from a reset, `LAST[c]` is written by every received ADD on `c`, with its time, and by nothing else. -/
def Obligations.OnlyReceivedBytesWriteLast : Prop :=
  ∀ (s t : State) (c : Chan), step s = .next t → s.resetNext = false →
    (s.receives c = [] → (t.ch c).last = (s.ch c).last) ∧ (s.receives c ≠ [] → (t.ch c).last = t.now)

/-! ## Independence -/

/-- R59: what an operation does to a channel and what it emits for it depends on that channel's registers, the
parameters, the phase, the arbiter and the time, never on the other channel (marked as derived). -/
def Obligations.ChannelsAreIndependent : Prop :=
  ∀ (s u s' u' : State) (i : Instr) (c : Chan), s.cfg = u.cfg → s.arb = u.arb → s.phase = u.phase →
    s.refused = u.refused → s.now = u.now → s.ch c = u.ch c → exec i s = .next s' → exec i u = .next u' →
      s'.ch c = u'.ch c ∧
      ∃ new, eventsOf c s'.evt = eventsOf c s.evt ++ new ∧ eventsOf c u'.evt = eventsOf c u.evt ++ new

/-- Two ADDs on different channels at one time commute (R59, marked as derived). -/
def Obligations.AddsOnDifferentChannelsCommute : Prop :=
  ∀ (s : State) (bm bd : Byte), s.refused = none → s.phase = .ctrl ∨ s.phase = .poll →
    ∃ t, andThen (exec (.add .m bm) s) (exec (.add .d bd)) = .next t ∧
      andThen (exec (.add .d bd) s) (exec (.add .m bm)) = .next t

/-- The order of the two byte lists of a CYCLE does not change its result (R83, marked as derived). -/
def Obligations.CycleListOrderDoesNotMatter : Prop :=
  ∀ (s : State) (t : Nat) (ms ds : List Byte) (rest : List Stimulus), s.refused = none →
    s.phase = .ctrl ∨ s.phase = .poll →
    s.input = addAll .m t ms ++ addAll .d t ds ++ rest →
      ∃ u, run (ms.length + ds.length) s = .next u ∧ u.input = rest ∧
        run (ms.length + ds.length) { s with input := addAll .d t ds ++ addAll .m t ms ++ rest } = .next u

/-- Hidden state (R40 (b), R22, R25): states that differ only in `BUF` from `LEN` on, in `LAST` of empty channels and in
what the resets to come leave in the buffers are observed alike for ever. -/
def Obligations.HiddenStateIsNeverObserved : Prop :=
  ∀ (k : Nat) (s t : State), State.Alike s t → observe k s = observe k t

/-- R113: which channel is active depends on the reset value, the times of the ARBs and FSWs and the slice, never on
buffer contents, lengths or received bytes (marked as derived). -/
def Obligations.ArbitrationIgnoresTheTraffic : Prop :=
  ∀ (k : Nat) (s t : State), s.Inv → t.Inv → State.SameArbitration s t →
    ∃ s' t', run k s = .next s' ∧ run k t = .next t' ∧ s'.arb = t'.arb ∧ s'.outputs = t'.outputs

/-! ## Whole runs -/

/-- A host that keeps the cycle order of R170 is never refused, and every cycle ends in phase `CTRL` (R31, R60). -/
def Obligations.OrderedHostIsNeverRefused : Prop :=
  ∀ (s : State) (ks : List HostCycle) (rest : List Stimulus), s.Inv → s.refused = none → s.phase = .ctrl →
    (s.cfg.rxModel = .dedicated → ∀ k ∈ ks, ∀ p ∈ k.commands, p.1 ≠ .fsw) →
    s.input = ks.flatMap (HostCycle.stream s.cfg.rxModel) ++ rest →
      ∃ t, run (ks.flatMap (HostCycle.stream s.cfg.rxModel)).length s = .next t ∧
        t.refused = none ∧ t.phase = .ctrl ∧ t.input = rest

/-- One frame per burst (R105), in any interleaving with the other channel, with commands and with switches: if a
channel is empty, then receives bytes through steps none of which clears it, and is then flushed, exactly one
`FrameCompleted` of that channel is emitted for them, with the first `CAPACITY` of them in order, `ovf = 1` exactly
when there were more. The spec marks the rule as derived. -/
def Obligations.OneFramePerBurst : Prop :=
  ∀ (c : Chan) (k : Nat) (s t u : State), s.Inv → (s.ch c).len = 0 → run k s = .next t → unclearedFor c k s = true →
    received c k s ≠ [] → t.flushes c = true → step t = .next u →
      framesOf c t.evt = framesOf c s.evt ∧
      framesOf c u.evt = framesOf c s.evt ++
        [.frameCompleted c (decide (s.cfg.capacity c < (received c k s).length))
          (min (received c k s).length (s.cfg.capacity c)) ((received c k s).take (s.cfg.capacity c))] ∧
      (u.ch c).len = 0 ∧ (u.ch c).ovf = false

/-- R114: with a slice of at least 1 and a cycle at every millisecond from the start of a slice on, whatever bytes the
cycles carry, `ACTIVE` changes exactly `floor(T / S)` times in `T` milliseconds (marked as derived). -/
def Obligations.SwitchesCountTheSlices : Prop :=
  ∀ (s : State) (a : Arbiter) (t0 : Nat) (cs : List (List Byte × List Byte)) (rest : List Stimulus),
    s.Inv → s.cfg.rxModel = .shared → s.refused = none → s.phase = .ctrl → 1 ≤ s.cfg.timeslice →
    s.arb = some a → a.lsw = t0 % 2 ^ s.cfg.timeWidth →
    s.input = (cs.mapIdx fun j p => cycle .shared (t0 + 1 + j) p.1 p.2).flatten ++ rest →
      switches (cs.mapIdx fun j p => cycle .shared (t0 + 1 + j) p.1 p.2).flatten.length s
        = cs.length / s.cfg.timeslice

/-- An idle step adds nothing to what is observed (R42, R36 (a)): a host's stream is observed as it is with its idle
steps left out. -/
def Obligations.IdleStepsAreNeverObserved : Prop :=
  ∀ (s : State) (ops : List Stimulus),
    observe ops.length { s with input := ops } =
      observe (ops.filter (· ≠ .idle)).length { s with input := ops.filter (· ≠ .idle) }

/-- R166 over whole runs (marked as derived): in a run that claims cover, every ARB compares the true time since the last
switch, or since the reset, with the slice. -/
def Obligations.SafeRunsCompareSlicesExactly : Prop :=
  ∀ (cfg : Config) (t : Nat) (bytes : Contents) (ops : List Stimulus) (s : State), SafeRun cfg t bytes ops s →
    ∀ (k : Nat) (u u' : State) (w : Word) (n : Nat) (rest : List Stimulus) (a : Arbiter),
      run k (State.boot cfg t bytes ops) = .next u → u.input = .op w n :: rest → u.performs = some (.arb, u') →
      u'.arb = some a →
        lastSwitch t k (State.boot cfg t bytes ops) ≤ n ∧
        (u'.sliceElapsed a = true ↔ cfg.timeslice ≤ n - lastSwitch t k (State.boot cfg t bytes ops))

/-- R166 over whole runs (marked as derived): in a run that claims cover, every TICK compares the true time since the last
byte of a non-empty channel with the gap threshold. R166 bounds the time between TICKs; that the first TICK comes within
the same bound of the reset is a premise of its own here. -/
def Obligations.SafeRunsCompareGapsExactly : Prop :=
  ∀ (cfg : Config) (t : Nat) (bytes : Contents) (ops : List Stimulus) (s : State), SafeRun cfg t bytes ops s →
    (∀ x, (timesOfOp .tick ops).head? = some x → x ≤ t + aliasBound cfg) →
    ∀ (k : Nat) (u u' : State) (w : Word) (n : Nat) (rest : List Stimulus) (c : Chan),
      run k (State.boot cfg t bytes ops) = .next u → u.input = .op w n :: rest → u.performs = some (.tick, u') →
      0 < (u'.ch c).len →
        lastByte c t k (State.boot cfg t bytes ops) ≤ n ∧
        (u'.gapElapsed c = true ↔ cfg.gapThreshold ≤ n - lastByte c t k (State.boot cfg t bytes ops))
end

