-- ==== Sys2Proof/Laws/State.lean ====
section
/-! SUPPORT. One lemma per field per update, true by rfl (after a split on the channel), so that no later proof unfolds
a record update. -/

namespace Sys2Proof.Machine

@[simp] theorem other_m : Chan.other .m = .d := rfl
@[simp] theorem other_d : Chan.other .d = .m := rfl
@[simp] theorem other_other (c : Chan) : c.other.other = c := by cases c <;> rfl
@[simp] theorem other_ne (c : Chan) : c.other ≠ c := by cases c <;> decide
@[simp] theorem ne_other (c : Chan) : c ≠ c.other := by cases c <;> decide
theorem eq_other_of_ne {c c' : Chan} (h : c' ≠ c) : c' = c.other := by cases c <;> cases c' <;> simp_all

theorem ch_m (s : State) : s.ch .m = s.chM := rfl
theorem ch_d (s : State) : s.ch .d = s.chD := rfl

section setCh
variable (s : State) (c : Chan) (x : Channel)
@[simp] theorem setCh_cfg : (s.setCh c x).cfg = s.cfg := by cases c <;> rfl
@[simp] theorem setCh_arb : (s.setCh c x).arb = s.arb := by cases c <;> rfl
@[simp] theorem setCh_phase : (s.setCh c x).phase = s.phase := by cases c <;> rfl
@[simp] theorem setCh_refused : (s.setCh c x).refused = s.refused := by cases c <;> rfl
@[simp] theorem setCh_evt : (s.setCh c x).evt = s.evt := by cases c <;> rfl
@[simp] theorem setCh_now : (s.setCh c x).now = s.now := by cases c <;> rfl
@[simp] theorem setCh_input : (s.setCh c x).input = s.input := by cases c <;> rfl
@[simp] theorem setCh_ch_self : (s.setCh c x).ch c = x := by cases c <;> rfl
@[simp] theorem setCh_ch_other : (s.setCh c x).ch c.other = s.ch c.other := by cases c <;> rfl
@[simp] theorem setCh_other_ch : (s.setCh c.other x).ch c = s.ch c := by cases c <;> rfl
theorem setCh_ch_ne {c' : Chan} (h : c' ≠ c) : (s.setCh c x).ch c' = s.ch c' := by
  rw [eq_other_of_ne h]; simp
theorem setCh_ch (c' : Chan) : (s.setCh c x).ch c' = if c' = c then x else s.ch c' := by
  cases c <;> cases c' <;> rfl
end setCh

section setPhase
variable (s : State) (p : Phase)
@[simp] theorem setPhase_cfg : (s.setPhase p).cfg = s.cfg := rfl
@[simp] theorem setPhase_chM : (s.setPhase p).chM = s.chM := rfl
@[simp] theorem setPhase_chD : (s.setPhase p).chD = s.chD := rfl
@[simp] theorem setPhase_ch (c : Chan) : (s.setPhase p).ch c = s.ch c := by cases c <;> rfl
@[simp] theorem setPhase_arb : (s.setPhase p).arb = s.arb := rfl
@[simp] theorem setPhase_phase : (s.setPhase p).phase = p := rfl
@[simp] theorem setPhase_refused : (s.setPhase p).refused = s.refused := rfl
@[simp] theorem setPhase_evt : (s.setPhase p).evt = s.evt := rfl
@[simp] theorem setPhase_now : (s.setPhase p).now = s.now := rfl
@[simp] theorem setPhase_input : (s.setPhase p).input = s.input := rfl
end setPhase

section setArb
variable (s : State) (a : Arbiter)
@[simp] theorem setArb_cfg : (s.setArb a).cfg = s.cfg := rfl
@[simp] theorem setArb_ch (c : Chan) : (s.setArb a).ch c = s.ch c := by cases c <;> rfl
@[simp] theorem setArb_arb : (s.setArb a).arb = some a := rfl
@[simp] theorem setArb_phase : (s.setArb a).phase = s.phase := rfl
@[simp] theorem setArb_refused : (s.setArb a).refused = s.refused := rfl
@[simp] theorem setArb_evt : (s.setArb a).evt = s.evt := rfl
@[simp] theorem setArb_now : (s.setArb a).now = s.now := rfl
@[simp] theorem setArb_input : (s.setArb a).input = s.input := rfl
end setArb

section emit
variable (s : State) (e : Event)
@[simp] theorem emit_cfg : (s.emit e).cfg = s.cfg := rfl
@[simp] theorem emit_ch (c : Chan) : (s.emit e).ch c = s.ch c := by cases c <;> rfl
@[simp] theorem emit_arb : (s.emit e).arb = s.arb := rfl
@[simp] theorem emit_phase : (s.emit e).phase = s.phase := rfl
@[simp] theorem emit_refused : (s.emit e).refused = s.refused := rfl
@[simp] theorem emit_evt : (s.emit e).evt = s.evt ++ [e] := rfl
@[simp] theorem emit_now : (s.emit e).now = s.now := rfl
@[simp] theorem emit_input : (s.emit e).input = s.input := rfl
end emit

section sample
variable (s : State) (t : Nat) (bytes : Contents) (rest : List Stimulus)
@[simp] theorem sample_cfg : (s.sample t rest).cfg = s.cfg := rfl
@[simp] theorem sample_ch (c : Chan) : (s.sample t rest).ch c = s.ch c := by cases c <;> rfl
@[simp] theorem sample_arb : (s.sample t rest).arb = s.arb := rfl
@[simp] theorem sample_phase : (s.sample t rest).phase = s.phase := rfl
@[simp] theorem sample_refused : (s.sample t rest).refused = s.refused := rfl
@[simp] theorem sample_evt : (s.sample t rest).evt = s.evt := rfl
@[simp] theorem sample_now : (s.sample t rest).now = t % 2 ^ s.cfg.timeWidth := rfl
@[simp] theorem sample_input : (s.sample t rest).input = rest := rfl
@[simp] theorem skip_cfg : (s.skip rest).cfg = s.cfg := rfl
@[simp] theorem skip_ch (c : Chan) : (s.skip rest).ch c = s.ch c := by cases c <;> rfl
@[simp] theorem skip_arb : (s.skip rest).arb = s.arb := rfl
@[simp] theorem skip_phase : (s.skip rest).phase = s.phase := rfl
@[simp] theorem skip_refused : (s.skip rest).refused = s.refused := rfl
@[simp] theorem skip_evt : (s.skip rest).evt = s.evt := rfl
@[simp] theorem skip_now : (s.skip rest).now = s.now := rfl
@[simp] theorem skip_input : (s.skip rest).input = rest := rfl
@[simp] theorem restart_cfg : (s.restart t bytes rest).cfg = s.cfg := rfl
@[simp] theorem restart_ch (c : Chan) :
    (s.restart t bytes rest).ch c = Channel.reset (s.cfg.capacity c) (bytes.of c) := by cases c <;> rfl
@[simp] theorem restart_phase : (s.restart t bytes rest).phase = .ctrl := rfl
@[simp] theorem restart_refused : (s.restart t bytes rest).refused = none := rfl
@[simp] theorem restart_evt : (s.restart t bytes rest).evt = [] := rfl
@[simp] theorem restart_now : (s.restart t bytes rest).now = t % 2 ^ s.cfg.timeWidth := rfl
@[simp] theorem restart_input : (s.restart t bytes rest).input = rest := rfl
@[simp] theorem restart_arb :
    (s.restart t bytes rest).arb = match s.cfg.rxModel with
      | .dedicated => none
      | .shared => some { active := s.cfg.initActive, lsw := t % 2 ^ s.cfg.timeWidth } := rfl
end sample

section refuse
variable (s : State) (r : Reason) (w : Word)
@[simp] theorem refuse_cfg : (s.refuse r w).cfg = s.cfg := by unfold State.refuse; split <;> rfl
@[simp] theorem refuse_ch (c : Chan) : (s.refuse r w).ch c = s.ch c := by
  unfold State.refuse; split <;> cases c <;> rfl
@[simp] theorem refuse_arb : (s.refuse r w).arb = s.arb := by unfold State.refuse; split <;> rfl
@[simp] theorem refuse_phase : (s.refuse r w).phase = s.phase := by unfold State.refuse; split <;> rfl
@[simp] theorem refuse_evt : (s.refuse r w).evt = s.evt := by unfold State.refuse; split <;> rfl
@[simp] theorem refuse_now : (s.refuse r w).now = s.now := by unfold State.refuse; split <;> rfl
@[simp] theorem refuse_input : (s.refuse r w).input = s.input := by unfold State.refuse; split <;> rfl
theorem refuse_refused_none (h : s.refused = none) :
    (s.refuse r w).refused = some { reason := r, word := w, phase := s.phase } := by
  unfold State.refuse; split <;> simp_all
theorem refuse_of_some {m : Mark} (h : s.refused = some m) : s.refuse r w = s := by
  unfold State.refuse; split <;> simp_all
@[simp] theorem refuse_refused_ne : (s.refuse r w).refused ≠ none := by
  unfold State.refuse; split <;> simp_all
end refuse

section channel
variable (x : Channel) (t : Nat)
@[simp] theorem clear_buf : x.clear.buf = x.buf := rfl
@[simp] theorem clear_len : x.clear.len = 0 := rfl
@[simp] theorem clear_ovf : x.clear.ovf = false := rfl
@[simp] theorem clear_last : x.clear.last = x.last := rfl
@[simp] theorem touch_buf : (x.touch t).buf = x.buf := rfl
@[simp] theorem touch_len : (x.touch t).len = x.len := rfl
@[simp] theorem touch_ovf : (x.touch t).ovf = x.ovf := rfl
@[simp] theorem touch_last : (x.touch t).last = t := rfl
@[simp] theorem setOverflow_buf : x.setOverflow.buf = x.buf := rfl
@[simp] theorem setOverflow_len : x.setOverflow.len = x.len := rfl
@[simp] theorem setOverflow_ovf : x.setOverflow.ovf = true := rfl
@[simp] theorem setOverflow_last : x.setOverflow.last = x.last := rfl
@[simp] theorem reset_buf (cap : Nat) (bs : List Byte) :
    (Channel.reset cap bs).buf = Memory.ofBytes 0 (bs.take cap) := rfl
@[simp] theorem reset_len (cap : Nat) (bs : List Byte) : (Channel.reset cap bs).len = 0 := rfl
@[simp] theorem reset_ovf (cap : Nat) (bs : List Byte) : (Channel.reset cap bs).ovf = false := rfl
@[simp] theorem reset_last (cap : Nat) (bs : List Byte) : (Channel.reset cap bs).last = 0 := rfl
end channel

/-- Two states are equal when their parts are. -/
theorem state_ext {s t : State} (h1 : s.cfg = t.cfg) (h2 : ∀ c, s.ch c = t.ch c) (h3 : s.arb = t.arb)
    (h4 : s.phase = t.phase) (h5 : s.refused = t.refused) (h6 : s.evt = t.evt) (h7 : s.now = t.now)
    (h8 : s.input = t.input) : s = t := by
  have hm := h2 .m
  have hd := h2 .d
  cases s; cases t
  simp_all [State.ch]

end Sys2Proof.Machine
end

