-- ==== Sys2Proof/Laws/Operands.lean ====
section
/-! SUPPORT. The time arithmetic of R15. -/

namespace Sys2Proof.Machine

theorem elapsed_lt (w now t : Nat) : elapsed w now t < 2 ^ w := by
  have h1 : (0 : Int) < ((2 ^ w : Nat) : Int) := by exact_mod_cast Nat.two_pow_pos w
  have h2 := Int.emod_lt_of_pos ((now : Int) - t) h1
  have h3 := Int.emod_nonneg ((now : Int) - t) (ne_of_gt h1)
  unfold elapsed
  omega

/-- Sampled times are compared exactly while the true difference fits the width. -/
theorem elapsed_sampled {w t d : Nat} (h : d < 2 ^ w) : elapsed w ((t + d) % 2 ^ w) (t % 2 ^ w) = d := by
  unfold elapsed
  have h1 : (((t + d) % 2 ^ w : Nat) : Int) - ((t % 2 ^ w : Nat) : Int) ≡ (d : Int) [ZMOD ((2 ^ w : Nat) : Int)] := by
    push_cast
    calc ((t : Int) + d) % 2 ^ w - (t : Int) % 2 ^ w
        ≡ ((t : Int) + d) - t [ZMOD 2 ^ w] := (Int.mod_modEq _ _).sub (Int.mod_modEq _ _)
      _ = d := by ring
  rw [h1]
  rw [Int.emod_eq_of_lt (by positivity) (by exact_mod_cast h)]
  simp

@[simp] theorem elapsed_self (w t : Nat) : elapsed w t t = 0 := by simp [elapsed]

end Sys2Proof.Machine
end

