-- ==== Sys2Proof/Laws/Memory.lean ====
section
/-! SUPPORT. The laws of the buffer storage: read after write, what a reset's bytes read as, and that every operation
keeps the one canonical form. -/

namespace Sys2Proof.Machine

@[simp] theorem read_nil (i : Nat) : Memory.read [] i = Memory.blank := rfl

theorem read_cons (a : Nat) (b : Byte) (rest : Memory) (i : Nat) :
    Memory.read ((a, b) :: rest) i = if a = i then b else Memory.read rest i := rfl

/-! ## What is listed -/

theorem mem_erase {mem : Memory} {i : Nat} {cell : Host.Cell} : cell ∈ mem.erase i ↔ cell ∈ mem ∧ cell.1 ≠ i := by
  simp [Memory.erase]

theorem mem_insert {mem : Memory} {i : Nat} {v : Byte} {cell : Host.Cell} :
    cell ∈ mem.insert i v ↔ cell = (i, v) ∨ cell ∈ mem := by
  induction mem with
  | nil => simp [Memory.insert]
  | cons c0 rest ih =>
    obtain ⟨a, b⟩ := c0
    unfold Memory.insert
    split
    · simp only [List.mem_cons, ih]; tauto
    · simp

theorem mem_write {mem : Memory} {i : Nat} {v : Byte} {cell : Host.Cell} (h : cell ∈ Memory.write mem i v) :
    cell = (i, v) ∨ cell ∈ mem := by
  unfold Memory.write at h
  split at h
  · exact .inr (mem_erase.1 h).1
  · exact (mem_insert.1 h).imp_right fun h => (mem_erase.1 h).1

theorem mem_ofBytes {bs : List Byte} {i : Nat} {cell : Host.Cell} (h : cell ∈ Memory.ofBytes i bs) :
    i ≤ cell.1 ∧ cell.1 < i + bs.length := by
  induction bs generalizing i with
  | nil => simp [Memory.ofBytes] at h
  | cons b bs ih =>
    rw [List.length_cons]
    unfold Memory.ofBytes at h
    split at h
    · have := ih h; omega
    · rcases List.mem_cons.1 h with rfl | h
      · dsimp only; omega
      · have := ih h; omega

/-! ## Reading back -/

/-- An index that is not listed holds the blank byte. -/
theorem read_unlisted {mem : Memory} {i : Nat} (h : ∀ cell ∈ mem, cell.1 ≠ i) : Memory.read mem i = Memory.blank := by
  induction mem with
  | nil => rfl
  | cons c0 rest ih =>
    obtain ⟨a, b⟩ := c0
    rw [read_cons, if_neg (h (a, b) (by simp))]
    exact ih fun cell hc => h cell (List.mem_cons_of_mem _ hc)

theorem read_erase (mem : Memory) (i j : Nat) :
    Memory.read (mem.erase i) j = if j = i then Memory.blank else Memory.read mem j := by
  split
  · subst j; exact read_unlisted fun cell hc => (mem_erase.1 hc).2
  · rename_i hj
    induction mem with
    | nil => rfl
    | cons c0 rest ih =>
      obtain ⟨a, b⟩ := c0
      by_cases ha : a = i
      · subst a
        rw [read_cons, if_neg (Ne.symm hj), ← ih]
        simp [Memory.erase]
      · rw [read_cons, ← ih]
        simp [Memory.erase, ha, read_cons]

theorem read_insert {mem : Memory} {i : Nat} (v : Byte) (h : ∀ cell ∈ mem, cell.1 ≠ i) (j : Nat) :
    Memory.read (mem.insert i v) j = if j = i then v else Memory.read mem j := by
  induction mem with
  | nil => simp [Memory.insert, read_cons, eq_comm]
  | cons c0 rest ih =>
    obtain ⟨a, b⟩ := c0
    have ha : a ≠ i := h (a, b) (by simp)
    unfold Memory.insert
    split
    · rw [read_cons, ih fun cell hc => h cell (List.mem_cons_of_mem _ hc), read_cons]
      by_cases hj : a = j
      · subst j; simp [ha]
      · simp [hj]
    · rw [read_cons]
      simp only [eq_comm]

/-- What is read after a write: the byte written at its index, and elsewhere what was read before. -/
theorem read_write (mem : Memory) (i j : Nat) (v : Byte) :
    Memory.read (Memory.write mem i v) j = if j = i then v else Memory.read mem j := by
  unfold Memory.write
  split
  · rename_i hv
    rw [read_erase, hv]
  · rw [read_insert v fun cell hc => (mem_erase.1 hc).2, read_erase]
    split <;> rfl

theorem read_write_self (mem : Memory) (i : Nat) (v : Byte) : Memory.read (Memory.write mem i v) i = v := by
  simp [read_write]

theorem read_write_ne (mem : Memory) {i j : Nat} (v : Byte) (h : j ≠ i) :
    Memory.read (Memory.write mem i v) j = Memory.read mem j := by
  simp [read_write, h]

/-- A reset's bytes are read back. -/
theorem read_ofBytes (bs : List Byte) (i j : Nat) :
    Memory.read (Memory.ofBytes i bs) (i + j) = (bs[j]?).getD Memory.blank := by
  induction bs generalizing i j with
  | nil => rfl
  | cons b bs ih =>
    have low : Memory.read (Memory.ofBytes (i + 1) bs) i = Memory.blank :=
      read_unlisted fun cell hc => by have := mem_ofBytes hc; omega
    have high : ∀ j, Memory.read (Memory.ofBytes (i + 1) bs) (i + (j + 1)) = (bs[j]?).getD Memory.blank := fun j => by
      rw [show i + (j + 1) = i + 1 + j by omega, ih]
    unfold Memory.ofBytes
    split
    · rename_i hb
      cases j with
      | zero => simp [low, hb]
      | succ j => simp [high]
    · cases j with
      | zero => simp [read_cons]
      | succ j => simp [read_cons, high]

/-! ## The canonical form -/

theorem wf_nil : Memory.wf [] := by simp [Memory.wf]

theorem wf_cons {a : Nat} {b : Byte} {rest : Memory} :
    Memory.wf ((a, b) :: rest) ↔ (∀ cell ∈ rest, a < cell.1) ∧ b ≠ Memory.blank ∧ Memory.wf rest := by
  simp only [Memory.wf, List.map_cons, List.pairwise_cons, List.mem_map, List.mem_cons]
  constructor
  · rintro ⟨⟨h1, h2⟩, h3⟩
    exact ⟨fun cell hc => h1 _ ⟨cell, hc, rfl⟩, h3 _ (.inl rfl), h2, fun cell hc => h3 _ (.inr hc)⟩
  · rintro ⟨h1, h2, h3, h4⟩
    exact ⟨⟨by rintro _ ⟨cell, hc, rfl⟩; exact h1 cell hc, h3⟩, by rintro cell (rfl | hc); exacts [h2, h4 cell hc]⟩

theorem wf_erase {mem : Memory} (h : Memory.wf mem) (i : Nat) : Memory.wf (mem.erase i) :=
  ⟨h.1.sublist (List.filter_sublist.map _), fun cell hc => h.2 cell (mem_erase.1 hc).1⟩

theorem wf_insert {mem : Memory} {i : Nat} {v : Byte} (h : Memory.wf mem) (hi : ∀ cell ∈ mem, cell.1 ≠ i)
    (hv : v ≠ Memory.blank) : Memory.wf (mem.insert i v) := by
  induction mem with
  | nil => exact wf_cons.2 ⟨by simp, hv, wf_nil⟩
  | cons c0 rest ih =>
    obtain ⟨a, b⟩ := c0
    obtain ⟨hlt, hb, hr⟩ := wf_cons.1 h
    have ha : a ≠ i := hi (a, b) (by simp)
    unfold Memory.insert
    split
    · rename_i hai
      refine wf_cons.2 ⟨fun cell hc => ?_, hb, ih hr fun cell hc => hi cell (List.mem_cons_of_mem _ hc)⟩
      rcases mem_insert.1 hc with rfl | hc
      · exact hai
      · exact hlt cell hc
    · refine wf_cons.2 ⟨fun cell hc => ?_, hv, h⟩
      rcases List.mem_cons.1 hc with rfl | hc
      · dsimp only; omega
      · have := hlt cell hc; omega

/-- A write keeps the canonical form. -/
theorem wf_write {mem : Memory} (h : Memory.wf mem) (i : Nat) (v : Byte) : Memory.wf (Memory.write mem i v) := by
  unfold Memory.write
  split
  · exact wf_erase h i
  · exact wf_insert (wf_erase h i) (fun cell hc => (mem_erase.1 hc).2) ‹_›

/-- A reset's bytes are in the canonical form. -/
theorem wf_ofBytes (bs : List Byte) (i : Nat) : Memory.wf (Memory.ofBytes i bs) := by
  induction bs generalizing i with
  | nil => exact wf_nil
  | cons b bs ih =>
    unfold Memory.ofBytes
    split
    · exact ih (i + 1)
    · exact wf_cons.2 ⟨fun cell hc => by have := mem_ofBytes hc; omega, ‹_›, ih (i + 1)⟩

/-- In the canonical form, storage that reads alike is equal: the form says nothing but what is read. -/
theorem eq_of_read {mem mem' : Memory} (h : Memory.wf mem) (h' : Memory.wf mem')
    (hr : ∀ i, Memory.read mem i = Memory.read mem' i) : mem = mem' := by
  induction mem generalizing mem' with
  | nil =>
    cases mem' with
    | nil => rfl
    | cons c0 rest =>
      obtain ⟨a, b⟩ := c0
      have := hr a
      simp only [read_nil, read_cons, if_true] at this
      exact absurd this.symm (wf_cons.1 h').2.1
  | cons c0 rest ih =>
    obtain ⟨a, b⟩ := c0
    obtain ⟨hlt, hb, hrest⟩ := wf_cons.1 h
    cases mem' with
    | nil =>
      have := hr a
      simp only [read_nil, read_cons, if_true] at this
      exact absurd this hb
    | cons c1 rest' =>
      obtain ⟨a', b'⟩ := c1
      obtain ⟨hlt', hb', hrest'⟩ := wf_cons.1 h'
      have below {m : Memory} {n k : Nat} (hm : ∀ cell ∈ m, n < cell.1) (hk : k ≤ n) :
          Memory.read m k = Memory.blank := read_unlisted fun cell hc => by have := hm cell hc; omega
      rcases Nat.lt_trichotomy a a' with hlta | rfl | hgt
      · have := hr a
        rw [read_cons, if_pos rfl, read_cons, if_neg (by omega), below hlt' (by omega)] at this
        exact absurd this hb
      · have hb1 := hr a
        rw [read_cons, if_pos rfl, read_cons, if_pos rfl] at hb1
        subst hb1
        refine congrArg _ (ih hrest hrest' fun i => ?_)
        by_cases hi : a = i
        · subst hi; rw [below hlt (le_refl _), below hlt' (le_refl _)]
        · have := hr i
          rwa [read_cons, if_neg hi, read_cons, if_neg hi] at this
      · have := hr a'
        rw [read_cons, if_neg (by omega), below hlt (by omega), read_cons, if_pos rfl] at this
        exact absurd this.symm hb'

end Sys2Proof.Machine
end

