-- ==== Sys2Proof/Laws/Ops.lean ====
section
/-! SUPPORT. What the shared operations can do, said once: a buffer access, a frame read, the checks before an
operation. -/

namespace Sys2Proof.Machine

@[simp] theorem andThen_next (s : State) (f : State → Result) : andThen (.next s) f = f s := rfl
@[simp] theorem andThen_fault (e : Fault) (f : State → Result) : andThen (.fault e) f = .fault e := rfl
@[simp] theorem andThen_refused (r : Refusal) (f : State → Result) : andThen (.refused r) f = .refused r := rfl

/-- A sequence that answers next did so twice. -/
theorem andThen_eq_next {o : Result} {f : State → Result} {t : State} (h : andThen o f = .next t) :
    ∃ s, o = .next s ∧ f s = .next t := by
  cases o with
  | next s => exact ⟨s, rfl, h⟩
  | fault e => simp [andThen] at h
  | refused r => simp [andThen] at h

/-- A byte that exists is read; any other read faults. -/
theorem memRead_ok {s : State} {c : Chan} {i : Nat} {b : Byte} :
    s.memRead c i = .ok b ↔ i < s.cfg.capacity c ∧ b = s.readByte c i := by
  unfold State.memRead
  split <;> simp_all [eq_comm]

/-- A frame is read exactly when each of its bytes is. -/
theorem readBytes_ok {s : State} {c : Chan} {n i : Nat} {f : List Byte} :
    s.readBytes c i n = .ok f ↔
      f.length = n ∧ ∀ j, j < n → i + j < s.cfg.capacity c ∧ f[j]? = some (s.readByte c (i + j)) := by
  induction n generalizing i f with
  | zero => cases f <;> simp [State.readBytes]
  | succ n ih =>
    unfold State.readBytes
    constructor
    · intro h
      split at h
      · simp at h
      · rename_i b hb
        split at h
        · simp at h
        · rename_i bs hbs
          obtain rfl : b :: bs = f := by simpa using h
          obtain ⟨hl, hj⟩ := ih.1 hbs
          refine ⟨by simp [hl], fun j hjn => ?_⟩
          cases j with
          | zero => simpa using memRead_ok.1 hb
          | succ j =>
            have := hj j (by omega)
            simpa [Nat.add_assoc, Nat.add_comm 1 j] using this
    · rintro ⟨hl, hj⟩
      cases f with
      | nil => simp at hl
      | cons b bs =>
        have hb : s.memRead c i = .ok b := memRead_ok.2 (by simpa using hj 0 (by omega))
        have hbs : s.readBytes c (i + 1) n = .ok bs := ih.2 ⟨by simpa using hl, fun j hjn => by
          have := hj (j + 1) (by omega)
          simpa [Nat.add_assoc, Nat.add_comm 1 j] using this⟩
        rw [hb, hbs]

/-- The frame a read answers, when it answers one. -/
theorem frame_ok {s : State} {c : Chan} {f : List Byte} :
    s.frame c = .ok f ↔
      f.length = (s.ch c).len ∧
        ∀ i, i < (s.ch c).len → i < s.cfg.capacity c ∧ f[i]? = some (s.readByte c i) := by
  simp [State.frame, readBytes_ok]

/-- Where every byte below `LEN` exists, the frame is read. -/
theorem exists_frame {s : State} {c : Chan} (hl : (s.ch c).len ≤ s.cfg.capacity c) : ∃ f, s.frame c = .ok f := by
  have key : ∀ n i, i + n ≤ (s.ch c).len → ∃ f, s.readBytes c i n = .ok f := by
    intro n
    induction n with
    | zero => intro i _; exact ⟨[], rfl⟩
    | succ n ih =>
      intro i hi
      obtain ⟨f, hf⟩ := ih (i + 1) (by omega)
      have hr : s.memRead c i = .ok (s.readByte c i) := memRead_ok.2 ⟨by omega, rfl⟩
      exact ⟨s.readByte c i :: f, by simp [State.readBytes, hr, hf]⟩
  exact key _ 0 (by omega)

/-- A write at an index that exists answers next. -/
theorem memWrite_of_lt {s : State} {c : Chan} {i : Nat} (v : Byte) (h : i < s.cfg.capacity c) :
    s.memWrite c i v = .next (s.setCh c { s.ch c with buf := Memory.write (s.ch c).buf i v }) := by
  simp [State.memWrite, h]

/-- Everything the checks of R72 can lead to. -/
theorem perform_cases (i : Instr) (s : State) (effect : State → Result) :
    (∃ m, s.refused = some m ∧ perform i s effect = .next s) ∨
    (∃ r, s.refused = none ∧ s.check i = some r ∧ perform i s effect = .next (s.refuse r (encode i))) ∨
    (s.refused = none ∧ s.check i = none ∧ perform i s effect = effect s) := by
  unfold perform
  cases hr : s.refused with
  | some m => exact .inl ⟨m, rfl, rfl⟩
  | none =>
    cases hc : s.check i with
    | some r => exact .inr (.inl ⟨r, rfl, rfl, rfl⟩)
    | none => exact .inr (.inr ⟨rfl, rfl, rfl⟩)

/-- An operation that passes the checks has its effect. -/
theorem perform_of_legal {i : Instr} {s : State} {effect : State → Result} (hr : s.refused = none)
    (hc : s.check i = none) : perform i s effect = effect s := by
  simp [perform, hr, hc]

/-- After a refusal nothing has any effect. -/
theorem perform_of_refused {i : Instr} {s : State} {effect : State → Result} {m : Mark}
    (hr : s.refused = some m) : perform i s effect = .next s := by
  simp [perform, hr]

/-- What it takes to pass the checks. -/
theorem check_eq_none {s : State} {i : Instr} :
    s.check i = none ↔ i.inInterface s.cfg.rxModel = true ∧ Instr.legalIn i s.phase = true := by
  unfold State.check
  split
  · split <;> simp_all
  · simp_all

/-- Reset memory has the canonical form, and memory operations keep it. -/
theorem memWrite_wf {s t : State} {c : Chan} {i : Nat} {v : Byte} (h : ∀ c, Memory.wf (s.ch c).buf)
    (ht : s.memWrite c i v = .next t) : ∀ c', Memory.wf (t.ch c').buf := by
  unfold State.memWrite at ht
  split at ht
  · injection ht with ht
    subst ht
    intro c'
    rw [setCh_ch]
    split
    · exact wf_write (h c) i v
    · exact h c'
  · cases ht

theorem reset_memory_wf (cfg : Config) (t : Nat) (bytes : Contents) :
    ∀ c, Memory.wf ((State.resetOf cfg t bytes).ch c).buf := by
  intro c
  cases c <;> exact wf_ofBytes _ _

/-- What a reset leaves in the buffers. -/
theorem reset_readByte (cfg : Config) (t : Nat) (bytes : Contents) (c : Chan) {i : Nat} (h : i < cfg.capacity c) :
    (State.resetOf cfg t bytes).readByte c i = ((bytes.of c)[i]?).getD Memory.blank := by
  have key : ∀ bs : List Byte, Memory.read (Memory.ofBytes 0 (bs.take (cfg.capacity c))) i
      = (bs[i]?).getD Memory.blank := fun bs => by
    have := read_ofBytes (bs.take (cfg.capacity c)) 0 i
    rwa [Nat.zero_add, List.getElem?_take_of_lt h] at this
  cases c <;> exact key _

end Sys2Proof.Machine
end

