-- ==== Sys2Proof/Laws/Scanner.lean ====
section
/-! SUPPORT. What the scanner's loop finds, and what a scan report changes. -/

namespace Sys2Proof.Machine

/-- The loop answers the first matching offset of its range. -/
theorem scanFrom_some {f : List Byte} {start : Byte} {len tries i j : Nat} :
    (scanFrom f start len tries i).found = some j ↔
      i ≤ j ∧ j < i + tries ∧ packetAt f start len j = true ∧
        ∀ k, i ≤ k → k < j → packetAt f start len k = false := by
  induction tries generalizing i with
  | zero => simp [scanFrom]; omega
  | succ n ih =>
    unfold scanFrom
    split
    · rename_i h
      constructor
      · intro hj
        obtain rfl : i = j := by simpa using hj
        exact ⟨le_refl _, by omega, h, fun k hk hk' => by omega⟩
      · rintro ⟨h1, -, -, h4⟩
        rcases Nat.lt_or_ge i j with hlt | hge
        · simp [h4 i (le_refl _) hlt] at h
        · simp; omega
    · rename_i h
      rw [ih]
      constructor
      · rintro ⟨h1, h2, h3, h4⟩
        refine ⟨by omega, by omega, h3, fun k hk hk' => ?_⟩
        rcases Nat.eq_or_lt_of_le hk with rfl | hlt
        · simpa using h
        · exact h4 k hlt hk'
      · rintro ⟨h1, h2, h3, h4⟩
        have : i ≠ j := fun e => h (e ▸ h3)
        exact ⟨by omega, by omega, h3, fun k hk hk' => h4 k (by omega) hk'⟩

/-- The loop answers none when no offset of its range matches. -/
theorem scanFrom_none {f : List Byte} {start : Byte} {len tries i : Nat} :
    (scanFrom f start len tries i).found = none ↔ ∀ k, i ≤ k → k < i + tries → packetAt f start len k = false := by
  induction tries generalizing i with
  | zero => simp [scanFrom]; intro k hk hk'; omega
  | succ n ih =>
    unfold scanFrom
    split
    · rename_i h
      simp only [reduceCtorEq, false_iff]
      intro hall
      simp [hall i (le_refl _) (by omega)] at h
    · rename_i h
      rw [ih]
      constructor
      · intro hall k hk hk'
        rcases Nat.eq_or_lt_of_le hk with rfl | hlt
        · simpa using h
        · exact hall k hlt (by omega)
      · exact fun hall k hk hk' => hall k (by omega) (by omega)

/-- A scan report changes the event output only. -/
theorem scanAndReport_eq (c : Chan) (f : List Byte) (s : State) :
    scanAndReport c f s = { s with evt := s.evt ++ scanEvents s.cfg c f } := by
  unfold scanAndReport scanEvents
  cases s.cfg.kps c with
  | none => simp
  | some k =>
    dsimp only
    cases scan f k.start k.plen with
    | none => simp
    | some i => simp [State.emit]

end Sys2Proof.Machine
end

