-- ==== Sys2Proof/Laws/Meanings.lean ====
section
/-! SUPPORT. What each meaning does once the checks have passed, said once and without the operations it is built
from. -/

namespace Sys2Proof.Machine

/-- The state after ADD stores a byte. -/
def stored (ch : Chan) (b : Byte) (s : State) : State :=
  (s.setPhase .poll).setCh ch
    { buf := Memory.write (s.ch ch).buf (s.ch ch).len b, len := (s.ch ch).len + 1, ovf := (s.ch ch).ovf, last := s.now }

/-- The state after ADD finds no room. -/
def overflowed (ch : Chan) (s : State) : State :=
  (s.setPhase .poll).setCh ch { s.ch ch with ovf := true, last := s.now }

/-- The state after a flush of channel `c` whose frame is `f`. -/
def flushed (c : Chan) (f : List Byte) (s : State) : State :=
  { s with evt := s.evt ++ flushEvents c f s }.setCh c (s.ch c).clear

theorem execAdd_legal {ch : Chan} {b : Byte} {s : State} (hr : s.refused = none) (hc : s.check (.add ch b) = none) :
    execAdd ch b s = .next
      (if s.receivable ch = true then
        if (s.ch ch).len < s.cfg.capacity ch then stored ch b s else overflowed ch s
      else s.setPhase .poll) := by
  unfold execAdd
  rw [perform_of_legal hr hc]
  unfold addEffect
  split
  · unfold accumulate
    simp only [setPhase_ch, setPhase_cfg]
    split
    · rw [memWrite_of_lt b (by simpa using ‹_›)]
      simp only [andThen_next, setCh_ch_self]
      congr 1
      cases ch <;> rfl
    · rfl
  · rfl

theorem flush_of_frame {c : Chan} {s : State} {f : List Byte} (h : s.frame c = .ok f) :
    flush c s = .next (flushed c f s) := by
  unfold flush
  rw [h]
  dsimp only
  rw [scanAndReport_eq]
  congr 1
  cases c <;> simp [flushed, flushEvents, State.setCh, State.emit, State.ch]

/-- A channel's turn in a TICK, when it answers next. -/
theorem channelTurn_cases {c : Chan} {s t : State} (h : channelTurn c s = .next t) :
    (s.due c = false ∧ t = s) ∨ (s.due c = true ∧ ∃ f, s.frame c = .ok f ∧ t = flushed c f s) := by
  unfold channelTurn at h
  split at h
  · rename_i hd
    right
    refine ⟨hd, ?_⟩
    cases hf : s.frame c with
    | error e => simp [flush, hf] at h
    | ok f =>
      rw [flush_of_frame hf] at h
      exact ⟨f, rfl, by simpa using h.symm⟩
  · rename_i hd
    left
    exact ⟨by simpa using hd, by simpa using h.symm⟩

theorem channelTurn_of_not_due {c : Chan} {s : State} (h : s.due c = false) : channelTurn c s = .next s := by
  simp [channelTurn, h]

theorem channelTurn_of_due {c : Chan} {s : State} {f : List Byte} (h : s.due c = true) (hf : s.frame c = .ok f) :
    channelTurn c s = .next (flushed c f s) := by
  simp [channelTurn, h, flush_of_frame hf]

theorem execTick_legal {s : State} (hr : s.refused = none) (hc : s.check .tick = none) :
    execTick s = andThen (channelTurn .m s) fun s1 => andThen (channelTurn .d s1) fun s2 =>
      .next (s2.setPhase (phaseAfterTick s2.cfg.rxModel)) := by
  unfold execTick
  rw [perform_of_legal hr hc]
  rfl

theorem execArb_legal {s : State} {a : Arbiter} (hr : s.refused = none) (hc : s.check .arb = none)
    (ha : s.arb = some a) :
    execArb s = .next ((if s.sliceElapsed a = true then s.setArb (a.switch s.now) else s).setPhase .ctrl) := by
  unfold execArb
  rw [perform_of_legal hr hc]
  simp [arbEffect, withArbiter, ha]

theorem execFsw_legal {s : State} {a : Arbiter} (hr : s.refused = none) (hc : s.check .fsw = none)
    (ha : s.arb = some a) : execFsw s = .next ((s.setArb (a.switch s.now)).setPhase .ctrl) := by
  unfold execFsw
  rw [perform_of_legal hr hc]
  simp [fswEffect, withArbiter, ha]

theorem execDiscard_legal {s : State} (hr : s.refused = none) (hc : s.check .discard = none) :
    execDiscard s = .next { s with chM := s.chM.clear, chD := s.chD.clear, phase := .ctrl } := by
  unfold execDiscard
  rw [perform_of_legal hr hc]
  rfl

section flushed
variable (c : Chan) (f : List Byte) (s : State)
@[simp] theorem flushed_cfg : (flushed c f s).cfg = s.cfg := by simp [flushed]
@[simp] theorem flushed_ch : (flushed c f s).ch c = (s.ch c).clear := by simp [flushed]
theorem flushed_ch_ne {c' : Chan} (h : c' ≠ c) : (flushed c f s).ch c' = s.ch c' := by
  rw [flushed, setCh_ch_ne _ _ _ h]; cases c' <;> rfl
@[simp] theorem flushed_arb : (flushed c f s).arb = s.arb := by simp [flushed]
@[simp] theorem flushed_phase : (flushed c f s).phase = s.phase := by simp [flushed]
@[simp] theorem flushed_refused : (flushed c f s).refused = s.refused := by simp [flushed]
@[simp] theorem flushed_now : (flushed c f s).now = s.now := by simp [flushed]
@[simp] theorem flushed_input : (flushed c f s).input = s.input := by simp [flushed]
@[simp] theorem flushed_evt : (flushed c f s).evt = s.evt ++ flushEvents c f s := by simp [flushed]
end flushed

/-- A flush of one channel leaves the other's turn as it was. -/
theorem due_of_same {s t : State} {c : Chan} (h1 : t.cfg = s.cfg) (h2 : t.now = s.now) (h3 : t.ch c = s.ch c) :
    t.due c = s.due c := by
  simp [State.due, State.gapElapsed, h1, h2, h3]

theorem frame_of_same {s t : State} {c : Chan} (h1 : t.cfg = s.cfg) (h3 : t.ch c = s.ch c) :
    t.frame c = s.frame c := by
  have hb : ∀ n i, t.readBytes c i n = s.readBytes c i n := by
    intro n
    induction n with
    | zero => intro i; rfl
    | succ n ih => intro i; simp [State.readBytes, State.memRead, State.readByte, h1, h3, ih]
  simp [State.frame, h3, hb]

end Sys2Proof.Machine
end

