-- ==== Sys2Proof/Laws/Step.lean ====
section
/-! SUPPORT. What one step does, by what the host presents, and how runs unfold. -/

namespace Sys2Proof.Machine

theorem step_nil {s : State} (h : s.input = []) : step s = .next s := by simp [step, h]

theorem step_idle {s : State} {rest : List Stimulus} (h : s.input = .idle :: rest) : step s = .next (s.skip rest) := by
  simp [step, h]

theorem step_reset {s : State} {t : Nat} {bytes : Contents} {rest : List Stimulus}
    (h : s.input = .reset t bytes :: rest) : step s = .next (s.restart t bytes rest) := by
  simp [step, h]

theorem step_op {s : State} {w : Word} {t : Nat} {rest : List Stimulus} (h : s.input = .op w t :: rest) :
    step s = present w (s.sample t rest) := by
  simp [step, h]

theorem run_zero (s : State) : run 0 s = .next s := rfl

theorem run_succ (k : Nat) (s : State) : run (k + 1) s = andThen (step s) (run k) := rfl

/-- One more step of the host's own run. -/
theorem core_run_succ (M : Host.Core) (k : Nat) (s : M.State) : M.run (k+1) s = match M.step s with
    | .next s' => M.run k s'
    | .fault r => .fault r
    | .refused r => .refused r := rfl

/-- A run is the host's own. -/
theorem run_eq_core (k : Nat) (s : State) : Host.Core.run Sys2Proof.core k s = run k s := by
  induction k generalizing s with
  | zero => rfl
  | succ k ih =>
    refine (core_run_succ Sys2Proof.core k s).trans ?_
    rw [run_succ]
    cases h : Sys2Proof.core.step s with
    | next s' =>
      have h' : step s = .next s' := h
      rw [h']
      exact ih s'
    | fault e =>
      have h' : step s = .fault e := h
      rw [h']
      rfl
    | refused r =>
      have h' : step s = .refused r := h
      rw [h']
      rfl

theorem run_add (j k : Nat) (s : State) : run (j + k) s = andThen (run j s) (run k) := by
  induction j generalizing s with
  | zero => simp [run_zero]
  | succ j ih =>
    rw [Nat.succ_add, run_succ, run_succ]
    cases step s with
    | next s' => simp [ih]
    | fault e => rfl
    | refused r => rfl

/-- Everything a performed step needs: the word, the time and what the checks say. -/
theorem performs_eq_some {s s' : State} {i : Instr} :
    s.performs = some (i, s') ↔
      ∃ w t rest, s.input = .op w t :: rest ∧ decode w = .op i ∧ s.refused = none ∧ s' = s.sample t rest ∧
        s'.check i = none := by
  unfold State.performs
  split
  · rename_i w t rest hin
    split
    · rename_i j hd
      constructor
      · intro h
        split at h
        · rename_i hcond
          simp only [Option.some.injEq, Prod.mk.injEq] at h
          obtain ⟨rfl, rfl⟩ := h
          exact ⟨w, t, rest, hin, hd, hcond.1, rfl, hcond.2⟩
        · simp at h
      · rintro ⟨w', t', rest', h1, h2, h3, rfl, h5⟩
        rw [hin] at h1
        simp only [List.cons.injEq, Stimulus.op.injEq] at h1
        obtain ⟨⟨rfl, rfl⟩, rfl⟩ := h1
        rw [hd] at h2
        simp only [Decoded.op.injEq] at h2
        subst h2
        simp [h3, h5]
    · rename_i hd
      simp only [reduceCtorEq, false_iff]
      rintro ⟨w', t', rest', h1, h2, -⟩
      rw [hin] at h1
      simp only [List.cons.injEq, Stimulus.op.injEq] at h1
      obtain ⟨⟨rfl, rfl⟩, rfl⟩ := h1
      simp [hd] at h2
  · rename_i hne
    simp only [reduceCtorEq, false_iff]
    rintro ⟨w', t', rest', h1, -⟩
    exact hne _ _ _ h1

/-- A performed step is the operation's own effect. -/
theorem step_of_performs {s s' : State} {i : Instr} (h : s.performs = some (i, s')) :
    step s = exec i s' ∧ s'.refused = none ∧ s'.check i = none := by
  obtain ⟨w, t, rest, h1, h2, h3, rfl, h5⟩ := performs_eq_some.1 h
  exact ⟨by rw [step_op h1]; simp [present, h2], h3, h5⟩

end Sys2Proof.Machine
end

