-- ==== Sys2Proof/Laws/Effect.lean ====
section
/-! SUPPORT. Everything a step can do, said once: the inversion of `exec` and of `step`, from which the invariants
follow. -/

namespace Sys2Proof.Machine

/-- The effect of an operation that passes the checks. -/
def effectOf : Instr → State → Result
  | .add ch b => addEffect ch b
  | .tick => tickEffect
  | .arb => arbEffect
  | .fsw => fswEffect
  | .discard => discardEffect

/-- Every meaning is its effect behind the checks. -/
theorem exec_eq_perform (i : Instr) (s : State) : exec i s = perform i s (effectOf i) := by cases i <;> rfl

theorem exec_of_refused {i : Instr} {s : State} {m : Mark} (h : s.refused = some m) : exec i s = .next s := by
  rw [exec_eq_perform, perform_of_refused h]

theorem exec_of_check {i : Instr} {s : State} {r : Reason} (h : s.refused = none) (hc : s.check i = some r) :
    exec i s = .next { s with refused := some { reason := r, word := encode i, phase := s.phase } } := by
  rw [exec_eq_perform]
  simp [perform, h, hc, State.refuse]

/-- The next states of the operations that pass the checks. -/
inductive Effect : Instr → State → State → Prop
  | dropped {ch b s} : s.receivable ch = false → Effect (.add ch b) s (s.setPhase .poll)
  | stored {ch b s} : s.receivable ch = true → (s.ch ch).len < s.cfg.capacity ch →
      Effect (.add ch b) s (stored ch b s)
  | overflowed {ch b s} : s.receivable ch = true → s.cfg.capacity ch ≤ (s.ch ch).len →
      Effect (.add ch b) s (overflowed ch s)
  | tick {s s1 s2} : channelTurn .m s = .next s1 → channelTurn .d s1 = .next s2 →
      Effect .tick s (s2.setPhase (phaseAfterTick s2.cfg.rxModel))
  | arb {s a} : s.arb = some a →
      Effect .arb s ((if s.sliceElapsed a = true then s.setArb (a.switch s.now) else s).setPhase .ctrl)
  | fsw {s a} : s.arb = some a → Effect .fsw s ((s.setArb (a.switch s.now)).setPhase .ctrl)
  | discard {s} : Effect .discard s { s with chM := s.chM.clear, chD := s.chD.clear, phase := .ctrl }

/-- An operation that passes the checks and answers next has one of the effects. -/
theorem effect_of_exec {i : Instr} {s t : State} (hr : s.refused = none) (hc : s.check i = none)
    (h : exec i s = .next t) : Effect i s t := by
  cases i with
  | add ch b =>
    obtain rfl := Host.Outcome.next.inj ((execAdd_legal hr hc).symm.trans h)
    split
    · split
      · exact .stored ‹_› ‹_›
      · exact .overflowed ‹_› (by omega)
    · rename_i hn
      exact .dropped (by simpa using hn)
  | tick =>
    have h := (execTick_legal hr hc).symm.trans h
    obtain ⟨s1, h1, h⟩ := andThen_eq_next h
    obtain ⟨s2, h2, h⟩ := andThen_eq_next h
    obtain rfl := Host.Outcome.next.inj h
    exact .tick h1 h2
  | arb =>
    cases ha : s.arb with
    | none =>
      rw [exec_eq_perform, perform_of_legal hr hc] at h
      simp [effectOf, arbEffect, withArbiter, ha] at h
    | some a =>
      obtain rfl := Host.Outcome.next.inj ((execArb_legal hr hc ha).symm.trans h)
      exact .arb ha
  | fsw =>
    cases ha : s.arb with
    | none =>
      rw [exec_eq_perform, perform_of_legal hr hc] at h
      simp [effectOf, fswEffect, withArbiter, ha] at h
    | some a =>
      obtain rfl := Host.Outcome.next.inj ((execFsw_legal hr hc ha).symm.trans h)
      exact .fsw ha
  | discard =>
    obtain rfl := Host.Outcome.next.inj ((execDiscard_legal hr hc).symm.trans h)
    exact .discard

/-- All the ways a step answers next. -/
inductive StepCase (s t : State) : Prop
  | nothing : s.input = [] → t = s → StepCase s t
  | idle {rest} : s.input = .idle :: rest → t = s.skip rest → StepCase s t
  | reset {n b rest} : s.input = .reset n b :: rest → t = s.restart n b rest → StepCase s t
  | ignored {w n rest m} : s.input = .op w n :: rest → s.refused = some m → t = s.sample n rest → StepCase s t
  | reserved {w n rest} : s.input = .op w n :: rest → s.refused = none → decode w = .reserved →
      t = { s.sample n rest with refused := some ⟨.reservedEncoding, w, s.phase⟩ } → StepCase s t
  | refused {w n rest i r} : s.input = .op w n :: rest → s.refused = none → decode w = .op i →
      (s.sample n rest).check i = some r →
      t = { s.sample n rest with refused := some ⟨r, encode i, s.phase⟩ } → StepCase s t
  | performed {w n rest i} : s.input = .op w n :: rest → decode w = .op i →
      s.performs = some (i, s.sample n rest) → Effect i (s.sample n rest) t → StepCase s t

theorem step_cases {s t : State} (h : step s = .next t) : StepCase s t := by
  cases hin : s.input with
  | nil =>
    rw [step_nil hin] at h
    exact .nothing hin (Host.Outcome.next.inj h).symm
  | cons x rest =>
    cases x with
    | idle =>
      rw [step_idle hin] at h
      exact .idle hin (Host.Outcome.next.inj h).symm
    | reset n b =>
      rw [step_reset hin] at h
      exact .reset hin (Host.Outcome.next.inj h).symm
    | op w n =>
      rw [step_op hin] at h
      unfold present at h
      cases hd : decode w with
      | reserved =>
        rw [hd] at h
        have h := (Host.Outcome.next.inj h).symm
        cases hr : s.refused with
        | some m => exact .ignored hin hr (h.trans (refuse_of_some _ _ _ hr))
        | none => exact .reserved hin hr hd (by rw [h]; simp [State.refuse, hr])
      | op i =>
        rw [hd] at h
        dsimp only at h
        cases hr : s.refused with
        | some m =>
          rw [exec_of_refused (s := s.sample n rest) hr] at h
          exact .ignored hin hr (Host.Outcome.next.inj h).symm
        | none =>
          cases hc : (s.sample n rest).check i with
          | some r =>
            rw [exec_of_check (s := s.sample n rest) hr hc] at h
            exact .refused hin hr hd hc (Host.Outcome.next.inj h).symm
          | none =>
            exact .performed hin hd (performs_eq_some.2 ⟨w, n, rest, hin, hd, hr, rfl, hc⟩) (effect_of_exec hr hc h)

/-- What a channel's turn in a TICK leaves alone. -/
theorem channelTurn_frame {c : Chan} {s t : State} (h : channelTurn c s = .next t) :
    t.cfg = s.cfg ∧ t.arb = s.arb ∧ t.phase = s.phase ∧ t.refused = s.refused ∧ t.now = s.now ∧
      t.input = s.input ∧ t.ch c.other = s.ch c.other ∧ (t.ch c).buf = (s.ch c).buf ∧
      (t.ch c).last = (s.ch c).last := by
  rcases channelTurn_cases h with ⟨_, rfl⟩ | ⟨_, f, _, rfl⟩
  · simp
  · simp [flushed_ch_ne]

section stored
variable (c : Chan) (b : Byte) (s : State)
@[simp] theorem stored_cfg : (stored c b s).cfg = s.cfg := by simp [stored]
@[simp] theorem stored_arb : (stored c b s).arb = s.arb := by simp [stored]
@[simp] theorem stored_phase : (stored c b s).phase = .poll := by simp [stored]
@[simp] theorem stored_refused : (stored c b s).refused = s.refused := by simp [stored]
@[simp] theorem stored_evt : (stored c b s).evt = s.evt := by simp [stored]
@[simp] theorem stored_now : (stored c b s).now = s.now := by simp [stored]
@[simp] theorem stored_input : (stored c b s).input = s.input := by simp [stored]
@[simp] theorem stored_ch : (stored c b s).ch c =
    { buf := Memory.write (s.ch c).buf (s.ch c).len b, len := (s.ch c).len + 1, ovf := (s.ch c).ovf, last := s.now } := by
  simp [stored]
theorem stored_ch_ne {c' : Chan} (h : c' ≠ c) : (stored c b s).ch c' = s.ch c' := by
  rw [stored, setCh_ch_ne _ _ _ h]; simp
@[simp] theorem overflowed_cfg : (overflowed c s).cfg = s.cfg := by simp [overflowed]
@[simp] theorem overflowed_arb : (overflowed c s).arb = s.arb := by simp [overflowed]
@[simp] theorem overflowed_phase : (overflowed c s).phase = .poll := by simp [overflowed]
@[simp] theorem overflowed_refused : (overflowed c s).refused = s.refused := by simp [overflowed]
@[simp] theorem overflowed_evt : (overflowed c s).evt = s.evt := by simp [overflowed]
@[simp] theorem overflowed_now : (overflowed c s).now = s.now := by simp [overflowed]
@[simp] theorem overflowed_input : (overflowed c s).input = s.input := by simp [overflowed]
@[simp] theorem overflowed_ch : (overflowed c s).ch c = { s.ch c with ovf := true, last := s.now } := by
  simp [overflowed]
theorem overflowed_ch_ne {c' : Chan} (h : c' ≠ c) : (overflowed c s).ch c' = s.ch c' := by
  rw [overflowed, setCh_ch_ne _ _ _ h]; simp
end stored

/-- What no performed operation writes. -/
theorem Effect.frame {i : Instr} {s t : State} (h : Effect i s t) :
    t.cfg = s.cfg ∧ t.refused = s.refused ∧ t.now = s.now ∧ t.input = s.input := by
  cases h with
  | tick h1 h2 => simp [channelTurn_frame h1, channelTurn_frame h2]
  | arb => split <;> simp
  | _ => simp

end Sys2Proof.Machine
end

