-- ==== Sys2Proof/Laws/Channels.lean ====
section
/-! SUPPORT. What a performed operation does to each channel, what the checks amount to, and the shapes of a step, each
said once. -/

namespace Sys2Proof.Machine

/-! ## The checks as the spec's tables -/

theorem check_add {s : State} {c : Chan} {b : Byte} :
    s.check (.add c b) = none ↔ s.phase = .ctrl ∨ s.phase = .poll := by
  simp [check_eq_none, Instr.inInterface, Instr.legalIn]

theorem check_tick {s : State} : s.check .tick = none ↔ s.phase = .ctrl ∨ s.phase = .poll := by
  simp [check_eq_none, Instr.inInterface, Instr.legalIn]

/-- The phase check is R31's table. -/
theorem phaseRule_eq_none {rx : RxModel} {i : Instr} {p : Phase} :
    phaseRule rx i p = none ↔ Instr.legalIn i p = false := by
  cases i <;> cases p <;> simp [phaseRule, Instr.legalIn]

theorem inInterface_eq_false {rx : RxModel} {i : Instr} :
    i.inInterface rx = false ↔ (i = .arb ∨ i = .fsw) ∧ rx = .dedicated := by
  cases i <;> cases rx <;> simp [Instr.inInterface]

/-- The checks after decoding are R146's table. -/
theorem refusalRule_of_decode {s : State} {w : Word} {i : Instr} (h : decode w = .op i) :
    refusalRule s.cfg.rxModel s.phase w = s.check i := by
  simp only [refusalRule, h, State.check]
  cases hi : i.inInterface s.cfg.rxModel with
  | false => rw [if_pos (inInterface_eq_false.1 hi)]; simp
  | true =>
    have : ¬ ((i = .arb ∨ i = .fsw) ∧ s.cfg.rxModel = .dedicated) := fun hh => by
      simp [inInterface_eq_false.2 hh] at hi
    rw [if_neg this]
    simp only [phaseRule_eq_none]
    cases Instr.legalIn i s.phase <;> simp

theorem receivable_iff {s : State} {c : Chan} :
    s.receivable c = true ↔ s.cfg.rxModel = .dedicated ∨ s.arb.map Arbiter.active = some c := by
  simp [State.receivable]

theorem due_iff_gapDue {s : State} {c : Chan} : s.due c = true ↔ s.GapDue c := by
  unfold State.due State.GapDue State.gapElapsed elapsed
  have h1 : (0 : Int) < 2 ^ s.cfg.timeWidth := by positivity
  have h3 := Int.emod_nonneg ((s.now : Int) - (s.ch c).last) (ne_of_gt h1)
  simp only [Bool.and_eq_true, decide_eq_true_eq]
  push_cast
  omega

theorem sliceElapsed_iff {s : State} {a : Arbiter} :
    s.sliceElapsed a = true ↔
      (s.cfg.timeslice : Int) ≤ ((s.now : Int) - a.lsw) % (2 : Int) ^ s.cfg.timeWidth := by
  unfold State.sliceElapsed elapsed
  have h1 : (0 : Int) < 2 ^ s.cfg.timeWidth := by positivity
  have h3 := Int.emod_nonneg ((s.now : Int) - a.lsw) (ne_of_gt h1)
  simp only [decide_eq_true_eq]
  push_cast
  omega

/-! ## Frames -/

theorem frame_of_isFrame {s : State} {c : Chan} {f : List Byte} (h : s.IsFrame c f)
    (hl : (s.ch c).len ≤ s.cfg.capacity c) : s.frame c = .ok f :=
  frame_ok.2 ⟨h.1, fun i hi => ⟨by omega, h.2 i (by rw [h.1]; exact hi)⟩⟩

theorem isFrame_of_frame {s : State} {c : Chan} {f : List Byte} (h : s.frame c = .ok f) : s.IsFrame c f := by
  obtain ⟨hl, hb⟩ := frame_ok.1 h
  exact ⟨hl, fun i hi => (hb i (by omega)).2⟩

/-! ## A channel's registers -/

theorem Channel.Ok.clear {cap w : Nat} {x : Channel} (h : Channel.Ok cap w x) : Channel.Ok cap w x.clear :=
  ⟨by simp, by simp, h.buf_wf, h.inside, h.last_lt⟩

theorem Channel.Ok.overflow {cap w n : Nat} {x : Channel} (h : Channel.Ok cap w x) (hf : cap ≤ x.len)
    (hn : n < 2 ^ w) : Channel.Ok cap w { x with ovf := true, last := n } :=
  ⟨h.len_le, fun _ => le_antisymm h.len_le hf, h.buf_wf, h.inside, hn⟩

theorem Channel.Ok.store {cap w n : Nat} {x : Channel} {b : Byte} (h : Channel.Ok cap w x) (hf : x.len < cap)
    (hn : n < 2 ^ w) :
    Channel.Ok cap w { buf := Memory.write x.buf x.len b, len := x.len + 1, ovf := x.ovf, last := n } := by
  refine ⟨hf, fun ho => by have := h.ovf_full ho; omega, wf_write h.buf_wf _ _, fun cell hc => ?_, hn⟩
  rcases mem_write hc with rfl | hc
  · exact hf
  · exact h.inside _ hc

theorem channelTurn_ch {c : Chan} {s t : State} (h : channelTurn c s = .next t) :
    t.ch c = if s.due c then (s.ch c).clear else s.ch c := by
  rcases channelTurn_cases h with ⟨hd, rfl⟩ | ⟨hd, f, hf, rfl⟩ <;> simp [hd]

/-- Both turns of a TICK, channel by channel. -/
theorem channelTurns_ch {s s1 s2 : State} (h1 : channelTurn .m s = .next s1) (h2 : channelTurn .d s1 = .next s2)
    (c : Chan) : s2.ch c = if s.due c then (s.ch c).clear else s.ch c := by
  have f1 := channelTurn_frame h1
  have f2 := channelTurn_frame h2
  have a1 := f1.2.2.2.2.2.2.1
  have a2 := f2.2.2.2.2.2.2.1
  simp only [other_m, other_d] at a1 a2
  cases c
  · rw [a2, channelTurn_ch h1]
  · rw [channelTurn_ch h2, due_of_same f1.1 f1.2.2.2.2.1 a1, a1]

/-- What a performed operation makes of channel `c`. -/
theorem Effect.ch {i : Instr} {s t : State} (he : Effect i s t) (c : Chan) :
    t.ch c = match i with
      | .add c' b =>
        if c' = c ∧ s.receivable c = true then
          (if (s.ch c).len < s.cfg.capacity c then
            { buf := Memory.write (s.ch c).buf (s.ch c).len b, len := (s.ch c).len + 1, ovf := (s.ch c).ovf,
              last := s.now }
          else { s.ch c with ovf := true, last := s.now })
        else s.ch c
      | .tick => if s.due c then (s.ch c).clear else s.ch c
      | .arb => s.ch c
      | .fsw => s.ch c
      | .discard => (s.ch c).clear := by
  cases he with
  | dropped h =>
    rename_i ch b
    dsimp only
    by_cases hc : ch = c
    · subst hc; simp [h]
    · simp [hc]
  | stored h1 h2 =>
    rename_i ch b
    by_cases hc : ch = c
    · subst hc; simp [h1, h2]
    · simp [hc, stored_ch_ne _ _ _ (Ne.symm hc)]
  | overflowed h1 h2 =>
    rename_i ch b
    by_cases hc : ch = c
    · subst hc; simp [h1, Nat.not_lt.2 h2]
    · simp [hc, overflowed_ch_ne _ _ (Ne.symm hc)]
  | tick h1 h2 => simpa using channelTurns_ch h1 h2 c
  | arb => split <;> simp
  | fsw => simp
  | discard => cases c <;> rfl

/-! ## The shapes of a step -/

theorem performs_of_not_op {s : State} (h : ∀ w n rest, s.input ≠ .op w n :: rest) : s.performs = none := by
  cases hp : s.performs with
  | none => rfl
  | some p =>
    obtain ⟨w, n, rest, h1, -⟩ := performs_eq_some.1 (show s.performs = some (p.1, p.2) from hp)
    exact absurd h1 (h _ _ _)

theorem performs_of_refused {s : State} {m : Mark} (h : s.refused = some m) : s.performs = none := by
  cases hp : s.performs with
  | none => rfl
  | some p =>
    obtain ⟨w, n, rest, _, _, h3, _⟩ := performs_eq_some.1 (show s.performs = some (p.1, p.2) from hp)
    simp [h] at h3

theorem performs_of_check {s : State} {w : Word} {n : Nat} {rest : List Stimulus} {i : Instr} {r : Reason}
    (h1 : s.input = .op w n :: rest) (hd : decode w = .op i) (hc : (s.sample n rest).check i = some r) :
    s.performs = none := by
  simp [State.performs, h1, hd, hc]

theorem performs_of_reserved {s : State} {w : Word} {n : Nat} {rest : List Stimulus}
    (h1 : s.input = .op w n :: rest) (hd : decode w = .reserved) : s.performs = none := by
  simp [State.performs, h1, hd]

/-- A step is a reset, or performs nothing and leaves the block's registers and events alone, or performs one
operation. -/
theorem step_trichotomy {s t : State} (h : step s = .next t) :
    (s.resetNext = true ∧ ∃ n b rest, s.input = .reset n b :: rest ∧ t = s.restart n b rest) ∨
    (s.resetNext = false ∧ s.performs = none ∧ t.cfg = s.cfg ∧ (∀ c, t.ch c = s.ch c) ∧ t.arb = s.arb ∧
      t.phase = s.phase ∧ t.evt = s.evt) ∨
    (s.resetNext = false ∧ ∃ i n rest, s.performs = some (i, s.sample n rest) ∧ Effect i (s.sample n rest) t) := by
  cases step_cases h with
  | performed hin _ hp he => exact .inr (.inr ⟨by simp [State.resetNext, hin], _, _, _, hp, he⟩)
  | nothing hin e =>
    subst e
    exact .inr (.inl ⟨by simp [State.resetNext, hin], performs_of_not_op (by simp [hin]), rfl, fun _ => rfl, rfl, rfl,
      rfl⟩)
  | idle hin e =>
    subst e
    exact .inr (.inl ⟨by simp [State.resetNext, hin], performs_of_not_op (by simp [hin]), rfl, by simp, rfl, rfl, rfl⟩)
  | reset hin e => exact .inl ⟨by simp [State.resetNext, hin], _, _, _, hin, e⟩
  | ignored hin hr e =>
    subst e
    exact .inr (.inl ⟨by simp [State.resetNext, hin], performs_of_refused hr, rfl, by simp, rfl, rfl, rfl⟩)
  | reserved hin hr hd e =>
    subst e
    exact .inr (.inl ⟨by simp [State.resetNext, hin], performs_of_reserved hin hd, rfl,
      by intro c; cases c <;> rfl, rfl, rfl, rfl⟩)
  | refused hin hr hd hc e =>
    subst e
    exact .inr (.inl ⟨by simp [State.resetNext, hin], performs_of_check hin hd hc, rfl,
      by intro c; cases c <;> rfl, rfl, rfl, rfl⟩)

theorem receives_of_performs {s : State} {i : Instr} {n : Nat} {rest : List Stimulus} (c : Chan) :
    s.performs = some (i, s.sample n rest) → s.receives c = match i with
      | .add c' b => if c' = c ∧ (s.sample n rest).receivable c = true then [b] else []
      | _ => [] := by
  intro hp
  cases i <;> simp [State.receives, hp]

theorem clears_of_performs {s : State} {i : Instr} {n : Nat} {rest : List Stimulus} (hr : s.resetNext = false)
    (c : Chan) :
    s.performs = some (i, s.sample n rest) → s.clears c = match i with
      | .tick => (s.sample n rest).due c
      | .discard => true
      | _ => false := by
  intro hp
  cases i <;> simp [State.clears, hp, hr]

end Sys2Proof.Machine
end

