-- ==== Sys2Proof/Laws/Encoding.lean ====
section
/-! SUPPORT. The decoder as arithmetic on the word's number: which words it reads as what. -/

namespace Sys2Proof

theorem word_eq_ofNat {w : Word} {n : Nat} (h : n < 65536) : w = BitVec.ofNat 16 n ↔ w.toNat = n := by
  rw [← BitVec.toNat_inj, BitVec.toNat_ofNat, Nat.mod_eq_of_lt h]

theorem opc_rsv_eq {w : Word} : (Word.opc w = 1#4 ∧ Word.rsv w = 0#3) ↔ w.toNat / 512 = 8 := by
  have hw := w.isLt
  simp only [Word.opc, Word.rsv, ← BitVec.toNat_inj, BitVec.extractLsb'_toNat, Nat.shiftRight_eq_div_pow,
    BitVec.toNat_ofNat]
  omega

/-- The five kinds of words the decoder reads as operations, and the rest. -/
theorem decode_cases (w : Word) :
    (w.toNat / 512 = 8 ∧ decode w = .op (.add (Chan.ofBit (Word.chBit w)) (Word.data w))) ∨
    (w.toNat = 0x2000 ∧ decode w = .op .tick) ∨
    (w.toNat = 0x3000 ∧ decode w = .op .arb) ∨
    (w.toNat = 0x4000 ∧ decode w = .op .fsw) ∨
    (w.toNat = 0x5000 ∧ decode w = .op .discard) ∨
    (w.toNat / 512 ≠ 8 ∧ w.toNat ≠ 0x2000 ∧ w.toNat ≠ 0x3000 ∧ w.toNat ≠ 0x4000 ∧ w.toNat ≠ 0x5000 ∧
      decode w = .reserved) := by
  unfold decode
  simp only [opc_rsv_eq, word_eq_ofNat (show 0x2000 < 65536 by decide), word_eq_ofNat (show 0x3000 < 65536 by decide),
    word_eq_ofNat (show 0x4000 < 65536 by decide), word_eq_ofNat (show 0x5000 < 65536 by decide)]
  split_ifs <;> simp_all

end Sys2Proof
end

