-- ==== Sys2Proof/Laws/PerInstr.lean ====
section
/-! SUPPORT. Statements made per operation, as syntax. -/

/-- R69: the pattern of an operation's row, `w AND mask = match`, holds of its word. -/
def Sys2Proof.Laws.Pattern.Statement (i : Sys2Proof.Instr) : Prop :=
  match i with
  | .add _ _ => Sys2Proof.encode i &&& 0xFE00#16 = 0x1000#16
  | .tick => Sys2Proof.encode i &&& 0xFFFF#16 = 0x2000#16
  | .arb => Sys2Proof.encode i &&& 0xFFFF#16 = 0x3000#16
  | .fsw => Sys2Proof.encode i &&& 0xFFFF#16 = 0x4000#16
  | .discard => Sys2Proof.encode i &&& 0xFFFF#16 = 0x5000#16

theorem Sys2Proof.Laws.Pattern.add (ch : Sys2Proof.Chan) (b : Sys2Proof.Byte) :
    Sys2Proof.Laws.Pattern.Statement (.add ch b) := by
  show Sys2Proof.encode (.add ch b) &&& 0xFE00#16 = 0x1000#16
  cases ch <;> simp only [Sys2Proof.encode, Sys2Proof.Chan.bit] <;> ext i hi <;>
    simp only [BitVec.getElem_and, BitVec.getElem_append] <;> interval_cases i <;> simp

theorem Sys2Proof.Laws.Pattern.tick : Sys2Proof.Laws.Pattern.Statement .tick := by
  show Sys2Proof.encode .tick &&& 0xFFFF#16 = 0x2000#16
  decide

theorem Sys2Proof.Laws.Pattern.arb : Sys2Proof.Laws.Pattern.Statement .arb := by
  show Sys2Proof.encode .arb &&& 0xFFFF#16 = 0x3000#16
  decide

theorem Sys2Proof.Laws.Pattern.fsw : Sys2Proof.Laws.Pattern.Statement .fsw := by
  show Sys2Proof.encode .fsw &&& 0xFFFF#16 = 0x4000#16
  decide

theorem Sys2Proof.Laws.Pattern.discard : Sys2Proof.Laws.Pattern.Statement .discard := by
  show Sys2Proof.encode .discard &&& 0xFFFF#16 = 0x5000#16
  decide
end

