-- ==== Sys2Proof/Tests/Slice0.lean ====
section
/-! SUPPORT. Tests of single steps against `95_test_vectors.md` and the worked examples of the rules (the vector is named
in each comment), the refusals of the well-formedness check, and for every statement with hypotheses a state that meets
them. -/

namespace Sys2Proof.Tests

open Sys2Proof Sys2Proof.Machine

/-! ## Helpers -/

/-- The conventions of the vectors under `Shared`. -/
def shared : Config := Config.ofVectors

/-- The conventions of the vectors under `Dedicated`. -/
def dedicated : Config := { Config.ofVectors with rxModel := .dedicated }

/-- A channel holding these bytes. -/
def chan (bytes : List Byte) (ovf : Bool) (last : Nat) : Channel :=
  { buf := Memory.ofBytes 0 bytes, len := bytes.length, ovf := ovf, last := last }

/-- The reset state of the vectors plus channel contents, a phase and the next stimuli. -/
def st (cfg : Config) (m d : Channel) (p : Phase) (input : List Stimulus) : State :=
  { State.resetOf cfg 0 Contents.blank with chM := m, chD := d, phase := p, input := input }

/-- The arbiter registers of a state set. -/
def withArb (s : State) (c : Chan) (lsw : Nat) : State := { s with arb := some { active := c, lsw := lsw } }

/-- An outcome is a next state with a property. -/
def nextHas (o : Result) (p : State → Bool) : Bool :=
  match o with
  | .next t => p t
  | .fault _ => false
  | .refused _ => false

/-- The mark of a refusal in a state. -/
def marked (s : State) (r : Reason) (w : Word) (p : Phase) : Bool :=
  decide (s.refused = some { reason := r, word := w, phase := p })

/-- A channel nothing has been received on. -/
def empty : Channel := Channel.reset 4 []

/-! ## Well-formedness: one ill-formed configuration for each check -/

theorem test_wf_vectors : shared.wf = true ∧ dedicated.wf = true := by decide
theorem test_wf_capacityM : ({ shared with capacityM := 0 } : Config).wf = false := by decide
theorem test_wf_capacityD : ({ shared with capacityD := 0 } : Config).wf = false := by decide
theorem test_wf_timeWidth : ({ shared with timeWidth := 0, gapThreshold := 0, timeslice := 0 } : Config).wf = false := by
  decide
theorem test_wf_gapThreshold : ({ shared with gapThreshold := 4294967296 } : Config).wf = false := by decide
theorem test_wf_timeslice : ({ shared with timeslice := 4294967296 } : Config).wf = false := by decide
theorem test_wf_kpsM : ({ shared with kpsM := some { start := 0x43#8, plen := 1, name := "" } } : Config).wf = false := by
  decide
theorem test_wf_kpsD : ({ shared with kpsD := some { start := 0x43#8, plen := 1, name := "" } } : Config).wf = false := by
  decide
theorem test_wf_plen : Kps.wf { start := 0x43#8, plen := 2, name := "" } = true ∧
    Kps.wf { start := 0x43#8, plen := 1, name := "" } = false := by decide

/-! ## Decoding: words written out from R65 and R69 -/

/-- E1: `0001 000c dddd dddd` with `c = 0`, `d = 0x43`. -/
theorem test_decode_add_m : decode 0b0001000001000011#16 = .op (.add .m 0x43#8) := by decide
/-- E2: bit 8 is the channel. -/
theorem test_decode_add_d : decode 0b0001000101000011#16 = .op (.add .d 0x43#8) := by decide
/-- E6. -/
theorem test_decode_tick : decode 0b0010000000000000#16 = .op .tick := by decide
/-- E11. -/
theorem test_decode_arb : decode 0b0011000000000000#16 = .op .arb := by decide
/-- E14. -/
theorem test_decode_fsw : decode 0b0100000000000000#16 = .op .fsw := by decide
/-- E15. -/
theorem test_decode_discard : decode 0b0101000000000000#16 = .op .discard := by decide
/-- E4, E5, E7, E8, E9, E10, E13. -/
theorem test_decode_reserved :
    [0x1243#16, 0x1E00#16, 0x2001#16, 0x0000#16, 0x6000#16, 0xFFFF#16, 0x3001#16].all
      (fun w => decide (decode w = .reserved)) = true := by decide
/-- The encodings of the worked programs (P2, P3). -/
theorem test_encode : encode (.add .m 0x11#8) = 0x1011#16 ∧ encode (.add .d 0xAA#8) = 0x11AA#16 ∧
    encode .tick = 0x2000#16 ∧ encode .arb = 0x3000#16 ∧ encode .fsw = 0x4000#16 ∧ encode .discard = 0x5000#16 := by
  decide
/-- R70: the interface under each model. -/
theorem test_interface : Instr.inInterface .dedicated .arb = false ∧ Instr.inInterface .dedicated .fsw = false ∧
    Instr.inInterface .dedicated .tick = true ∧ Instr.inInterface .shared .arb = true := by decide
/-- Table words, numbered as the table numbers them. -/
theorem test_decodeTableWord : decodeTableWord 16 0x1143 = some (.add .d 0x43#8) ∧
    decodeTableWord 16 0x5000 = some .discard ∧ decodeTableWord 16 0x1200 = none := by decide
/-- A placed word is what the next step runs. -/
theorem test_withFetchWord : nextHas (step (State.reset.withFetchWord 16 0x4000))
    (fun t => decide (t.arb = some { active := .d, lsw := 0 })) = true := by decide

/-! ## ADD -/

/-- The worked example of R91, and A1's byte `0x00` over what an earlier frame left (corner (f)). -/
theorem test_add_stores :
    nextHas (step (st dedicated (chan [0x01#8, 0x02#8] false 90) empty .poll [.op 0x1043#16 100]))
      (fun t => decide (t.chM = chan [0x01#8, 0x02#8, 0x43#8] false 100 ∧ t.phase = .poll ∧ t.evt = [])) = true ∧
    nextHas (step (st dedicated { chan [0x99#8, 0x98#8] false 0 with len := 0 } empty .poll [.op 0x1000#16 7]))
      (fun t => decide (t.readByte .m 0 = 0x00#8 ∧ t.readByte .m 1 = 0x98#8 ∧ t.chM.len = 1 ∧ t.chM.last = 7)) = true := by
  decide
/-- A3: a byte for a full buffer is discarded, and `LAST` is written all the same. -/
theorem test_add_overflows :
    nextHas (step (st dedicated (chan [0x0A#8, 0x0B#8, 0x0C#8, 0x0D#8] false 8) empty .poll [.op 0x1055#16 9]))
      (fun t => decide (t.chM = chan [0x0A#8, 0x0B#8, 0x0C#8, 0x0D#8] true 9)) = true := by decide

/-! ## TICK -/

/-- T5: both channels due, M first. -/
theorem test_tick_m_before_d :
    nextHas (step (st dedicated (chan [0x11#8] false 0) (chan [0x22#8] false 5) .poll [.op 0x2000#16 20]))
      (fun t => decide (t.evt = [.frameCompleted .m false 1 [0x11#8], .frameCompleted .d false 1 [0x22#8]] ∧
        t.chM.len = 0 ∧ t.chD.len = 0 ∧ t.phase = .ctrl)) = true := by decide
/-- T11: an overflowed frame is scanned, and the known packet follows the frame. -/
theorem test_tick_scans_overflowed_frame :
    nextHas (step (st { dedicated with capacityM := 3, kpsM := some { start := 0x43#8, plen := 3, name := "MOTOR" } }
        (chan [0x43#8, 0x01#8, 0x44#8] true 0) empty .poll [.op 0x2000#16 10]))
      (fun t => decide (t.evt = [.frameCompleted .m true 3 [0x43#8, 0x01#8, 0x44#8],
        .knownPacket .m 0 [0x43#8, 0x01#8, 0x44#8]] ∧ t.chM.len = 0 ∧ t.chM.ovf = false)) = true := by decide

/-! ## ARB -/

/-- B1. -/
theorem test_arb_keeps_below_the_slice :
    nextHas (step (st shared empty empty .arb [.op 0x3000#16 49]))
      (fun t => decide (t.arb = some { active := .m, lsw := 0 } ∧ t.phase = .ctrl)) = true := by decide
/-- B5: the slice elapses across a wrap of the time. -/
theorem test_arb_switches_across_the_wrap :
    nextHas (step (withArb (st shared empty empty .arb [.op 0x3000#16 0x22]) .m 0xFFFFFFF0))
      (fun t => decide (t.arb = some { active := .d, lsw := 0x22 } ∧ t.phase = .ctrl)) = true := by decide

/-! ## FSW -/

/-- F1. -/
theorem test_fsw_switches :
    nextHas (step (st shared empty empty .ctrl [.op 0x4000#16 20]))
      (fun t => decide (t.arb = some { active := .d, lsw := 20 } ∧ t.phase = .ctrl ∧ t.refused = none)) = true := by
  decide
/-- P-5. -/
theorem test_fsw_refused_after_polling :
    nextHas (step (st shared empty empty .poll [.op 0x4000#16 20]))
      (fun t => marked t .outOfPhase 0x4000#16 .poll && decide (t.arb = some { active := .m, lsw := 0 })) = true := by
  decide

/-! ## DISCARD -/

/-- L1-5. -/
theorem test_discard_clears :
    nextHas (step (st dedicated (chan [0x01#8, 0x02#8, 0x03#8, 0x04#8] true 3) (chan [0x05#8, 0x06#8] false 4) .ctrl
        [.op 0x5000#16 0]))
      (fun t => decide (t.chM.len = 0 ∧ t.chM.ovf = false ∧ t.chD.len = 0 ∧ t.chD.ovf = false ∧ t.evt = [] ∧
        t.phase = .ctrl ∧ t.chM.last = 3)) = true := by decide
/-- P-4. -/
theorem test_discard_refused_after_polling :
    nextHas (step (st shared (chan [0x01#8] false 3) empty .poll [.op 0x5000#16 0]))
      (fun t => marked t .outOfPhase 0x5000#16 .poll && decide (t.chM.len = 1)) = true := by decide

/-! ## Words refused before any phase is looked at -/

/-- E11 and E13: the order of R147. -/
theorem test_refusal_order :
    nextHas (step (st dedicated empty empty .ctrl [.op 0x3000#16 0]))
      (fun t => marked t .notInConfiguration 0x3000#16 .ctrl) = true ∧
    nextHas (step (st dedicated empty empty .ctrl [.op 0x3001#16 0]))
      (fun t => marked t .reservedEncoding 0x3001#16 .ctrl) = true := by decide

/-! ## The scanner and the checksum -/

/-- S1, S3, S4, S6, S7, S9, S10, S11, S12, S15, S17. -/
theorem test_scan_finds :
    scan [0x00#8, 0x43#8, 0x01#8, 0x02#8, 0x03#8, 0x04#8, 0x05#8, 0x06#8, 0x58#8] 0x43#8 8 = some 1 ∧
    scan [0x00#8, 0x43#8, 0x01#8, 0x02#8, 0x03#8, 0x04#8, 0x05#8, 0x06#8, 0x07#8, 0x5F#8] 0x43#8 9 = some 1 ∧
    scan [0x43#8, 0x43#8] 0x43#8 2 = some 0 ∧
    scan [0xFF#8, 0x02#8, 0x01#8] 0xFF#8 3 = some 0 ∧
    scan [0x43#8, 0x00#8, 0x00#8, 0x43#8, 0x01#8, 0x44#8] 0x43#8 3 = some 3 ∧
    scan [0x10#8, 0x20#8, 0x43#8, 0x01#8, 0x44#8] 0x43#8 3 = some 2 ∧
    scan [0x43#8, 0x01#8, 0x44#8, 0x43#8, 0x02#8, 0x45#8] 0x43#8 3 = some 0 ∧
    scan [0x00#8, 0x00#8, 0x00#8] 0x00#8 3 = some 0 ∧
    scan [0x43#8, 0x43#8, 0x86#8] 0x43#8 3 = some 0 ∧
    scan [0x80#8, 0x80#8, 0x00#8] 0x80#8 3 = some 0 ∧
    scan [0x43#8, 0x01#8, 0x44#8, 0x44#8, 0x44#8] 0x44#8 2 = some 2 := by decide
/-- S2, S5, S8, S13, S14, S16. -/
theorem test_scan_finds_none :
    scan [0x00#8, 0x43#8, 0x01#8, 0x02#8, 0x03#8, 0x04#8, 0x05#8, 0x06#8, 0x58#8] 0x43#8 9 = none ∧
    scan [0x43#8, 0x44#8] 0x43#8 2 = none ∧
    scan [0x43#8, 0x01#8] 0x43#8 3 = none ∧
    scan [] 0x43#8 2 = none ∧
    scan [0x43#8, 0x01#8, 0x43#8, 0x44#8] 0x43#8 2 = none ∧
    scan [0x43#8, 0x01#8, 0x02#8, 0x43#8, 0x44#8] 0x43#8 4 = none := by decide

/-! ## The textual form (R82) -/

/-- `ADD M, 0x43 @100`, and `add B,67 @7` with the alias and a decimal byte. -/
theorem test_assemble_add :
    assemble ['A', 'D', 'D', ' ', 'M', ',', ' ', '0', 'x', '4', '3', ' ', '@', '1', '0', '0'] =
      some { instr := .add .m 0x43#8, now := some 100 } ∧
    assemble ['a', 'd', 'd', ' ', 'B', ',', '6', '7', ' ', '@', '7'] =
      some { instr := .add .d 0x43#8, now := some 7 } := by decide
/-- The other four, and a byte that is none. -/
theorem test_assemble_others :
    assemble ['T', 'I', 'C', 'K', ' ', '@', '5'] = some { instr := .tick, now := some 5 } ∧
    assemble ['A', 'R', 'B', ' ', '@', '5'] = some { instr := .arb, now := some 5 } ∧
    assemble ['F', 'S', 'W', ' ', '@', '2', '0'] = some { instr := .fsw, now := some 20 } ∧
    assemble ['D', 'I', 'S', 'C', 'A', 'R', 'D'] = some { instr := .discard, now := none } ∧
    assemble ['A', 'D', 'D', ' ', 'M', ',', '2', '5', '6', ' ', '@', '7'] = none := by decide

/-! ## Witnesses: states and operands that meet the hypotheses of the statements, clause by clause -/

/-- `Channel.Ok`, as a check. -/
def okB (cap width : Nat) (x : Channel) : Bool :=
  decide (x.len ≤ cap) && decide (x.ovf = true → x.len = cap) && decide (Memory.wf x.buf) &&
    decide (∀ cell ∈ x.buf, cell.1 < cap) && decide (x.last < 2 ^ width)

theorem ok_of_okB {cap width : Nat} {x : Channel} (h : okB cap width x = true) : Channel.Ok cap width x := by
  simp only [okB, Bool.and_eq_true, decide_eq_true_eq] at h
  obtain ⟨⟨⟨⟨h1, h2⟩, h3⟩, h4⟩, h5⟩ := h
  exact ⟨h1, h2, h3, h4, h5⟩

/-- `State.Inv` of a state that has emitted nothing, as a check. -/
def invB (s : State) : Bool :=
  s.cfg.wf && okB (s.cfg.capacity .m) s.cfg.timeWidth s.chM && okB (s.cfg.capacity .d) s.cfg.timeWidth s.chD &&
    decide (s.arb.isSome = true ↔ s.cfg.rxModel = .shared) && s.arb.all (fun a => decide (a.lsw < 2 ^ s.cfg.timeWidth)) &&
    decide (s.phase = .arb → s.cfg.rxModel = .shared) && decide (s.now < 2 ^ s.cfg.timeWidth) && decide (s.evt = [])

theorem inv_of_invB {s : State} (h : invB s = true) : s.Inv := by
  simp only [invB, Bool.and_eq_true, decide_eq_true_eq] at h
  obtain ⟨⟨⟨⟨⟨⟨⟨h1, h2⟩, h3⟩, h4⟩, h5⟩, h6⟩, h7⟩, h8⟩ := h
  refine ⟨h1, fun c => ?_, h4, fun a ha => ?_, h6, h7, fun e he => ?_⟩
  · cases c
    · exact ok_of_okB h2
    · exact ok_of_okB h3
  · simpa [ha] using h5
  · simp [h8] at he

/-- A dedicated state in the middle of polling. -/
def polling (input : List Stimulus) : State :=
  st dedicated (chan [0x01#8, 0x02#8] false 90) (chan [0x05#8] false 95) .poll input

/-- A shared state at the start of a cycle. -/
def atCtrl (input : List Stimulus) : State :=
  st shared (chan [0x01#8, 0x02#8] false 90) empty .ctrl input

theorem test_witness_EveryDecodedWordIsTheEncoding : ∃ w i, decode w = .op i := ⟨0x11FF#16, .add .d 0xFF#8, by decide⟩

theorem test_witness_ReservedWordsAreRefused :
    (0x0FFF#16 : Word).toNat / 4096 = 0 ∧ 6 ≤ (0x6000#16 : Word).toNat / 4096 ∧
    ((0x1200#16 : Word).toNat / 4096 = 1 ∧ (0x1200#16 : Word).toNat / 512 % 8 ≠ 0) ∧
    (2 ≤ (0x2001#16 : Word).toNat / 4096 ∧ (0x2001#16 : Word).toNat % 4096 ≠ 0) ∧
    ((0x5FFF#16 : Word).toNat / 4096 ≤ 5 ∧ (0x5FFF#16 : Word).toNat % 4096 ≠ 0) ∧
    ∃ (s : State) (w : Word) (t : Nat) (rest : List Stimulus),
      s.input = .op w t :: rest ∧ decode w = .reserved ∧ s.refused = none :=
  ⟨by decide, by decide, by decide, by decide, by decide, polling [.op 0x1243#16 7], 0x1243#16, 7, [], rfl, by decide,
    rfl⟩

theorem test_witness_StepRunsTheDecodedOperation :
    ∃ (s : State) (w : Word) (t : Nat) (rest : List Stimulus) (i : Instr),
      s.input = .op w t :: rest ∧ decode w = .op i :=
  ⟨polling [.op 0x1043#16 100], 0x1043#16, 100, [], .add .m 0x43#8, rfl, by decide⟩

theorem test_witness_IdleStepsChangeNothing :
    (∃ s : State, s.input = []) ∧ ∃ (s : State) (rest : List Stimulus), s.input = .idle :: rest :=
  ⟨⟨polling [], rfl⟩, polling [.idle], [], rfl⟩

theorem test_witness_ResetGivesEveryElementItsResetValue :
    (∃ (s : State) (t : Nat) (bytes : Contents) (rest : List Stimulus), s.input = .reset t bytes :: rest ∧
      s.cfg.rxModel = .shared ∧ 3 < s.cfg.capacity .m ∧ 3 < (bytes.of .m).length) ∧
    ∃ (s : State) (t : Nat) (bytes : Contents) (rest : List Stimulus), s.input = .reset t bytes :: rest ∧
      s.cfg.rxModel = .dedicated :=
  ⟨⟨atCtrl [.reset 4294967295 { m := [0x01#8, 0x00#8, 0x03#8, 0x04#8, 0x05#8], d := [] }], 4294967295, _, [], rfl, rfl,
    by decide⟩, polling [.reset 5 Contents.blank], 5, _, [], rfl, rfl⟩

theorem test_witness_ParametersNeverChange : ∃ s t : State, s.input ≠ [] ∧ step s = .next t :=
  ⟨polling [.op 0x1043#16 100], _, by decide, rfl⟩

theorem test_witness_RefusalRecordsTheFirstReason :
    (∃ (s : State) (w : Word) (t : Nat) (rest : List Stimulus) (r : Reason), s.input = .op w t :: rest ∧
      s.refused = none ∧ refusalRule s.cfg.rxModel s.phase w = some r) ∧
    (∃ (s : State) (w : Word) (t : Nat) (rest : List Stimulus) (m : Mark), s.input = .op w t :: rest ∧
      s.refused = some m) ∧
    ∃ (s : State) (w : Word) (t : Nat) (rest : List Stimulus) (u : State), s.input = .op w t :: rest ∧
      s.refused = none ∧ refusalRule s.cfg.rxModel s.phase w = none ∧ step s = .next u :=
  ⟨⟨polling [.op 0x3000#16 7], 0x3000#16, 7, [], .notInConfiguration, rfl, rfl, by decide⟩,
    ⟨{ polling [.op 0x2000#16 7] with refused := some ⟨.reservedEncoding, 0#16, .poll⟩ }, 0x2000#16, 7, [], _, rfl, rfl⟩,
    polling [.op 0x2000#16 7], 0x2000#16, 7, [], _, rfl, rfl, by decide, rfl⟩

theorem test_witness_OnlyResetClearsTheRefusal :
    (∃ (s t : State) (m : Mark), s.refused = some m ∧ step s = .next t ∧ s.resetNext = false) ∧
    ∃ (s t : State) (m : Mark), s.refused = some m ∧ step s = .next t ∧ s.resetNext = true :=
  ⟨⟨{ polling [.op 0x2000#16 7] with refused := some ⟨.reservedEncoding, 0#16, .poll⟩ }, _, _, rfl, rfl, rfl⟩,
    { polling [.reset 7 Contents.blank] with refused := some ⟨.reservedEncoding, 0#16, .poll⟩ }, _, _, rfl, rfl, rfl⟩

theorem test_witness_ArbiterOperationsNeedTheSharedModel :
    ∃ (s : State) (i j : Instr), s.cfg.rxModel = .dedicated ∧ s.refused = none ∧ i = .arb ∧ j = .fsw :=
  ⟨polling [], _, _, rfl, rfl, rfl, rfl⟩

theorem test_witness_PhaseRuleIsKept :
    (∃ (s t : State) (i : Instr) (p : Phase), s.refused = none ∧ i.inInterface s.cfg.rxModel = true ∧
      exec i s = .next t ∧ phaseRule s.cfg.rxModel i s.phase = some p) ∧
    ∃ (s t : State) (i : Instr), s.refused = none ∧ i.inInterface s.cfg.rxModel = true ∧
      exec i s = .next t ∧ phaseRule s.cfg.rxModel i s.phase = none :=
  ⟨⟨atCtrl [], _, .tick, .arb, rfl, rfl, rfl, rfl⟩, atCtrl [], _, .arb, rfl, rfl, rfl, rfl⟩

/-- A stored byte at `LEN = CAPACITY - 1`, one at `LEN = CAPACITY`, one that is dropped, and one out of phase. -/
theorem test_witness_AddStoresDropsOrOverflows :
    (∃ (s : State) (ch : Chan), s.refused = none ∧ s.phase = .ctrl ∧
      s.arb.map Arbiter.active = some ch ∧ (s.ch ch).len + 1 = s.cfg.capacity ch) ∧
    (∃ (s : State) (ch : Chan), s.refused = none ∧ s.phase = .poll ∧
      s.cfg.rxModel = .dedicated ∧ s.cfg.capacity ch = (s.ch ch).len) ∧
    (∃ (s : State) (ch : Chan), s.refused = none ∧ s.phase = .poll ∧
      ¬ (s.cfg.rxModel = .dedicated ∨ s.arb.map Arbiter.active = some ch)) ∧
    (∃ s : State, s.refused = none ∧ s.phase = .arb) ∧
    ((0x1FFF#16 : Word).toNat / 4096 = 1 ∧ (0x1FFF#16 : Word).toNat / 512 % 8 ≠ 0) :=
  ⟨⟨st shared (chan [0x01#8, 0x02#8, 0x03#8] false 0) empty .ctrl [], .m, by decide⟩,
    ⟨st dedicated (chan [0x01#8, 0x02#8, 0x03#8, 0x04#8] false 0) empty .poll [], .m, by decide⟩,
    ⟨st shared empty empty .poll [], .d, by decide⟩, ⟨st shared empty empty .arb [], by decide⟩, by decide⟩

theorem test_witness_ExcessBytesAreDiscarded :
    ∃ (s : State) (c : Chan) (bs : List (Byte × Nat)) (rest : List Stimulus),
      s.refused = none ∧ (s.phase = .ctrl ∨ s.phase = .poll) ∧ s.receivable c = true ∧ (s.ch c).len = 0 ∧
      (s.ch c).ovf = false ∧ s.cfg.capacity c < bs.length ∧
      s.input = (bs.map fun p => Stimulus.ofInstr (.add c p.1) p.2) ++ rest :=
  ⟨st shared empty empty .ctrl ([(0x0A#8, 0), (0x0B#8, 0), (0x0C#8, 1), (0x0D#8, 1), (0x0E#8, 2)].map fun p =>
      Stimulus.ofInstr (.add .m p.1) p.2), .m,
    [(0x0A#8, 0), (0x0B#8, 0), (0x0C#8, 1), (0x0D#8, 1), (0x0E#8, 2)], [], by decide⟩

/-- One channel due exactly at the threshold, the other one unit short of it. -/
theorem test_witness_TickFlushesTheDueChannels :
    (∃ (s : State) (fm fd : List Byte) (dueM dueD : Bool), s.refused = none ∧ (s.phase = .ctrl ∨ s.phase = .poll) ∧
      s.IsFrame .m fm ∧ s.IsFrame .d fd ∧ (∀ c, (s.ch c).len ≤ s.cfg.capacity c) ∧
      (dueM = true ↔ s.GapDue .m) ∧ (dueD = true ↔ s.GapDue .d) ∧ dueM = true ∧ dueD = false) ∧
    (∃ s : State, s.refused = none ∧ s.phase = .arb) ∧
    (0x2001 ≤ (0x2001#16 : Word).toNat ∧ (0x2FFF#16 : Word).toNat ≤ 0x2FFF) :=
  ⟨⟨{ st dedicated (chan [0x11#8] false 0) (chan [0x22#8] false 1) .poll [] with now := 10 }, [0x11#8], [0x22#8], true,
      false, rfl, .inr rfl, by unfold State.IsFrame; decide, by unfold State.IsFrame; decide,
      by intro c; cases c <;> decide, by unfold State.GapDue; decide, by unfold State.GapDue; decide, rfl, rfl⟩,
    ⟨st shared empty empty .arb [], by decide⟩, by decide⟩

theorem test_witness_ScanWorkIsBounded : ∃ (f : List Byte) (cap : Nat), f.length ≤ cap :=
  ⟨[0x43#8, 0x01#8, 0x44#8], 3, by decide⟩

/-- The largest interval for which times compare exactly, across a wrap. -/
theorem test_witness_SampledTimesCompareExactly :
    ∃ (s : State) (t0 t : Nat) (a : Arbiter), s.now = t % 2 ^ s.cfg.timeWidth ∧ t0 ≤ t ∧
      t - t0 + 1 = 2 ^ s.cfg.timeWidth ∧ (s.ch .m).last = t0 % 2 ^ s.cfg.timeWidth ∧ s.arb = some a ∧
      a.lsw = t0 % 2 ^ s.cfg.timeWidth :=
  ⟨{ withArb (st shared (chan [0x01#8] false 250) empty .ctrl []) .m 250 with now := 249 }, 250, 4294967545,
    { active := .m, lsw := 250 }, by decide⟩

theorem test_witness_AliasingDutyKeepsComparisonsExact :
    ∃ (cfg : Config) (d gap : Nat), cfg.wf = true ∧ d + 1 = max cfg.gapThreshold cfg.timeslice ∧
      gap = 2 ^ cfg.timeWidth - max cfg.gapThreshold cfg.timeslice :=
  ⟨shared, 49, 4294967246, by decide⟩

theorem test_witness_RepeatedTickEmitsNothingNew :
    ∃ s t : State, s.Inv ∧ s.cfg.rxModel = .dedicated ∧ s.refused = none ∧ exec .tick s = .next t ∧ t.evt ≠ s.evt :=
  ⟨{ polling [] with now := 100 }, _, inv_of_invB (by decide), rfl, rfl, rfl, by decide⟩

/-- Elapsed time exactly the slice, and one unit less; out of phase; not in the configuration; the reserved words. -/
theorem test_witness_ArbSwitchesWhenTheSliceHasElapsed :
    (∃ (s : State) (a : Arbiter), s.refused = none ∧ s.cfg.rxModel = .shared ∧ s.phase = .arb ∧ s.arb = some a ∧
      (s.cfg.timeslice : Int) = ((s.now : Int) - a.lsw) % (2 : Int) ^ s.cfg.timeWidth) ∧
    (∃ (s : State) (a : Arbiter), s.refused = none ∧ s.cfg.rxModel = .shared ∧ s.phase = .arb ∧ s.arb = some a ∧
      ((s.now : Int) - a.lsw) % (2 : Int) ^ s.cfg.timeWidth + 1 = (s.cfg.timeslice : Int)) ∧
    (∃ s : State, s.refused = none ∧ s.cfg.rxModel = .shared ∧ s.phase ≠ .arb) ∧
    (∃ s : State, s.refused = none ∧ s.cfg.rxModel = .dedicated) ∧
    (0x3001 ≤ (0x3001#16 : Word).toNat ∧ (0x3FFF#16 : Word).toNat ≤ 0x3FFF) :=
  ⟨⟨{ st shared empty empty .arb [] with now := 50 }, { active := .m, lsw := 0 }, by decide⟩,
    ⟨{ st shared empty empty .arb [] with now := 49 }, { active := .m, lsw := 0 }, by decide⟩,
    ⟨atCtrl [], by decide⟩, ⟨polling [], by decide⟩, by decide⟩

theorem test_witness_FswAlwaysSwitches :
    (∃ (s : State) (a : Arbiter), s.refused = none ∧ s.cfg.rxModel = .shared ∧ s.phase = .ctrl ∧ s.arb = some a) ∧
    (∃ s : State, s.refused = none ∧ s.cfg.rxModel = .shared ∧ s.phase ≠ .ctrl) ∧
    (∃ s : State, s.refused = none ∧ s.cfg.rxModel = .dedicated) ∧
    (0x4001 ≤ (0x4001#16 : Word).toNat ∧ (0x4FFF#16 : Word).toNat ≤ 0x4FFF) :=
  ⟨⟨atCtrl [], { active := .m, lsw := 0 }, by decide⟩, ⟨st shared empty empty .arb [], by decide⟩,
    ⟨polling [], by decide⟩, by decide⟩

theorem test_witness_DiscardClearsBothChannels :
    (∃ s : State, s.refused = none ∧ s.phase = .ctrl) ∧ (∃ s : State, s.refused = none ∧ s.phase ≠ .ctrl) ∧
    (0x5001 ≤ (0x5001#16 : Word).toNat ∧ (0x5FFF#16 : Word).toNat ≤ 0x5FFF) :=
  ⟨⟨atCtrl [], by decide⟩, ⟨polling [], by decide⟩, by decide⟩

theorem test_witness_DiscardedBytesAreNeverObserved :
    ∃ (s : State) (t : Nat) (rest : List Stimulus) (x : Channel), s.refused = none ∧ s.phase = .ctrl ∧
      s.input = reconfig t ++ rest ∧ x ≠ s.chM :=
  ⟨atCtrl (reconfig 3 ++ [.op 0x2000#16 200]), 3, [.op 0x2000#16 200], empty, by decide⟩

theorem test_witness_OutputsFollowTheActiveChannel :
    (∃ s : State, s.cfg.rxModel = .dedicated) ∧ ∃ (s : State) (a : Arbiter), s.cfg.rxModel = .shared ∧ s.arb = some a :=
  ⟨⟨polling [], rfl⟩, atCtrl [], _, rfl, rfl⟩

theorem test_witness_ResetMeetsTheInvariant : ∃ cfg cfg' : Config, cfg.wf = true ∧ cfg'.wf = true ∧
    cfg.rxModel = .shared ∧ cfg'.rxModel = .dedicated := ⟨shared, dedicated, by decide⟩

theorem test_witness_EveryStepKeepsTheInvariant : ∃ s t : State, s.Inv ∧ step s = .next t ∧ t.evt ≠ [] :=
  ⟨polling [.op 0x2000#16 100], _, inv_of_invB (by decide), rfl, by decide⟩

/-- A mark of each of two reasons stands: P5's, and none yet. -/
theorem test_witness_EveryStepKeepsTheMarkTrue :
    (∃ s t : State, s.MarkTrue ∧ s.refused ≠ none ∧ step s = .next t) ∧
    ∃ s t : State, s.MarkTrue ∧ s.refused = none ∧ step s = .next t := by
  refine ⟨⟨{ st shared (chan [0x01#8] false 0) empty .poll [.op 0x2000#16 0] with
      refused := some ⟨.outOfPhase, 0x3000#16, .poll⟩ }, _, ?_, by decide, rfl⟩,
    polling [.op 0x3000#16 7], _, ?_, rfl, rfl⟩
  · intro m hm
    obtain rfl := Option.some.inj hm
    exact ⟨rfl, .arb, by decide, by decide, by decide⟩
  · intro m hm
    cases (show (none : Option Mark) = some m from hm)

theorem test_witness_NothingStopsInsideTheInvariant : ∃ s : State, s.Inv ∧ s.input ≠ [] :=
  ⟨polling [.op 0x2000#16 100], inv_of_invB (by decide), by decide⟩

theorem test_witness_EveryRunFromResetCompletes : ∃ cfg : Config, cfg.wf = true := ⟨shared, by decide⟩

theorem test_witness_OnlyArbAndFswWriteTheArbiter :
    ∃ s t : State, step s = .next t ∧ s.resetNext = false ∧ t.arb ≠ s.arb :=
  ⟨atCtrl [.op 0x4000#16 20], _, rfl, rfl, by decide⟩

theorem test_witness_OnlyTickEmits : ∃ s t : State, step s = .next t ∧ s.resetNext = false ∧ t.evt ≠ s.evt :=
  ⟨polling [.op 0x2000#16 100], _, rfl, rfl, by decide⟩

theorem test_witness_OnlyAddWritesTheBuffer :
    ∃ (s t : State) (c : Chan) (i : Nat), step s = .next t ∧ s.resetNext = false ∧ t.readByte c i ≠ s.readByte c i :=
  ⟨polling [.op 0x1043#16 100], _, .m, 2, rfl, rfl, by decide⟩

theorem test_witness_OnlyAClearLowersLengthOrOverflow :
    (∃ (s t : State) (c : Chan), step s = .next t ∧ s.clears c = false ∧ (t.ch c).len ≠ (s.ch c).len) ∧
    (∃ (s t : State) (c : Chan), step s = .next t ∧ s.clears c = true ∧ (s.ch c).len ≠ 0) ∧
    ∃ (s t : State) (c : Chan), step s = .next t ∧ s.receives c = [] ∧ s.performs ≠ none :=
  ⟨⟨polling [.op 0x1043#16 100], _, .m, rfl, by decide, by decide⟩,
    ⟨polling [.op 0x2000#16 100], _, .m, rfl, by decide, by decide⟩,
    polling [.op 0x1043#16 100], _, .d, rfl, by decide, by decide⟩

theorem test_witness_OnlyReceivedBytesWriteLast :
    (∃ (s t : State) (c : Chan), step s = .next t ∧ s.resetNext = false ∧ s.receives c = []) ∧
    ∃ (s t : State) (c : Chan), step s = .next t ∧ s.resetNext = false ∧ s.receives c ≠ [] :=
  ⟨⟨polling [.op 0x2000#16 100], _, .m, rfl, rfl, by decide⟩,
    polling [.op 0x1043#16 100], _, .m, rfl, rfl, by decide⟩

/-- Two states that differ in the other channel. -/
theorem test_witness_ChannelsAreIndependent :
    ∃ (s u s' u' : State) (i : Instr) (c : Chan), s.cfg = u.cfg ∧ s.arb = u.arb ∧ s.phase = u.phase ∧
      s.refused = u.refused ∧ s.now = u.now ∧ s.ch c = u.ch c ∧ s.ch c.other ≠ u.ch c.other ∧
      exec i s = .next s' ∧ exec i u = .next u' ∧ s'.evt ≠ s.evt :=
  ⟨{ st dedicated (chan [0x11#8] false 0) empty .poll [] with now := 10 },
    { st dedicated (chan [0x11#8] false 0) (chan [0x22#8] false 0) .poll [] with now := 10 }, _, _, .tick, .m,
    rfl, rfl, rfl, rfl, rfl, rfl, by decide, rfl, rfl, by decide⟩

theorem test_witness_AddsOnDifferentChannelsCommute :
    ∃ s : State, s.refused = none ∧ (s.phase = .ctrl ∨ s.phase = .poll) := ⟨polling [], by decide⟩

theorem test_witness_CycleListOrderDoesNotMatter :
    ∃ (s : State) (t : Nat) (ms ds : List Byte) (rest : List Stimulus), s.refused = none ∧
      (s.phase = .ctrl ∨ s.phase = .poll) ∧ ms ≠ [] ∧ ds ≠ [] ∧
      s.input = addAll .m t ms ++ addAll .d t ds ++ rest :=
  ⟨polling (addAll .m 99 [0x11#8] ++ addAll .d 99 [0x21#8, 0x22#8] ++ []), 99, [0x11#8], [0x21#8, 0x22#8], [],
    by decide⟩

/-- Two different states that differ only where nothing is observed. -/
theorem test_witness_HiddenStateIsNeverObserved : ∃ s t : State, State.Alike s t ∧ s ≠ t := by
  refine ⟨polling [.reset 7 { m := [0x55#8], d := [] }],
    { polling [.reset 7 Contents.blank] with chM := { chan [0x01#8, 0x02#8, 0x99#8] false 90 with len := 2 } },
    ⟨rfl, rfl, rfl, rfl, rfl, rfl, by decide, fun c => ?_⟩, by decide⟩
  cases c <;> (unfold Channel.Alike; decide)

/-- Two states with different buffers and different bytes still to come. -/
theorem test_witness_ArbitrationIgnoresTheTraffic :
    ∃ s t : State, s.Inv ∧ t.Inv ∧ State.SameArbitration s t ∧ s.chM ≠ t.chM ∧ s.input ≠ t.input := by
  refine ⟨st shared empty empty .ctrl [.op 0x1001#16 1, .op 0x2000#16 1, .op 0x3000#16 60],
    st shared (chan [0x05#8] false 0) empty .ctrl [.op 0x1002#16 1, .op 0x2000#16 1, .op 0x3000#16 60],
    inv_of_invB (by decide), inv_of_invB (by decide), ?_, by decide, by decide⟩
  unfold State.SameArbitration
  decide

/-- A host cycle with a command, bytes on both channels, a TICK and an ARB. -/
def aCycle : HostCycle :=
  { commands := [(.fsw, 3), (.discard, 3)], bytes := [(.d, 0x21#8, 4), (.m, 0x11#8, 4)], tickAt := 5, arbAt := 6 }

theorem test_witness_OrderedHostIsNeverRefused :
    (∃ (s : State) (ks : List HostCycle), s.Inv ∧ s.refused = none ∧ s.phase = .ctrl ∧ s.cfg.rxModel = .shared ∧
      ks ≠ [] ∧ s.input = ks.flatMap (HostCycle.stream s.cfg.rxModel) ++ []) ∧
    ∃ (s : State) (ks : List HostCycle), s.Inv ∧ s.refused = none ∧ s.phase = .ctrl ∧ s.cfg.rxModel = .dedicated ∧
      (∀ k ∈ ks, ∀ p ∈ k.commands, p.1 ≠ .fsw) ∧ ks ≠ [] ∧
      s.input = ks.flatMap (HostCycle.stream s.cfg.rxModel) ++ [] :=
  ⟨⟨st shared empty empty .ctrl (aCycle.stream .shared), [aCycle], inv_of_invB (by decide), by decide⟩,
    st dedicated empty empty .ctrl (HostCycle.stream .dedicated { aCycle with commands := [(.discard, 3)] }),
    [{ aCycle with commands := [(.discard, 3)] }], inv_of_invB (by decide), by decide⟩

/-- L1-1's first bytes and their TICK, with a TICK between that is not due. -/
theorem test_witness_OneFramePerBurst :
    ∃ (c : Chan) (k : Nat) (s t u : State), s.Inv ∧ (s.ch c).len = 0 ∧ run k s = .next t ∧ unclearedFor c k s = true ∧
      received c k s = [0x01#8, 0x02#8] ∧ t.flushes c = true ∧ step t = .next u :=
  ⟨.m, 3, st dedicated empty empty .ctrl [.op 0x1001#16 0, .op 0x2000#16 0, .op 0x1002#16 3, .op 0x2000#16 13], _, _,
    inv_of_invB (by decide), rfl, rfl, by decide, by decide, by decide, rfl⟩

/-- Slice 3 over four cycles: `T / S = 1`. -/
theorem test_witness_SwitchesCountTheSlices :
    ∃ (s : State) (a : Arbiter) (t0 : Nat) (cs : List (List Byte × List Byte)) (rest : List Stimulus),
      s.Inv ∧ s.cfg.rxModel = .shared ∧ s.refused = none ∧ s.phase = .ctrl ∧ 1 ≤ s.cfg.timeslice ∧
      s.arb = some a ∧ a.lsw = t0 % 2 ^ s.cfg.timeWidth ∧ s.cfg.timeslice < cs.length ∧
      s.input = (cs.mapIdx fun j p => cycle .shared (t0 + 1 + j) p.1 p.2).flatten ++ rest :=
  ⟨st { shared with timeslice := 3 } empty empty .ctrl
      (([([0x11#8], [0x21#8]), ([], []), ([0x12#8], []), ([], [])].mapIdx fun j p =>
        cycle .shared (0 + 1 + j) p.1 p.2).flatten ++ []),
    { active := .m, lsw := 0 }, 0, [([0x11#8], [0x21#8]), ([], []), ([0x12#8], []), ([], [])], [],
    inv_of_invB (by decide), rfl, rfl, rfl, by decide, rfl, by decide, by decide, rfl⟩

/-- One cycle across the wrap of an 8-bit time: a byte, its gap, and its slice. -/
def wrapOps : List Stimulus := [.op 0x1001#16 254, .op 0x2000#16 258, .op 0x3000#16 260]

/-- The parameters of P4. -/
def wrapCfg : Config := { shared with gapThreshold := 4, timeslice := 10, timeWidth := 8 }

theorem wrapOps_safe : ∃ s, SafeRun wrapCfg 250 Contents.blank wrapOps s := by
  refine ⟨_, by decide, ?_, by decide, by unfold AliasDuty; decide, rfl, by decide⟩
  intro x hx n b
  fin_cases hx <;> simp

/-- The ARB, whose slice elapses exactly, across the wrap. -/
theorem test_witness_SafeRunsCompareSlicesExactly :
    (∃ s, SafeRun wrapCfg 250 Contents.blank wrapOps s) ∧
    ∃ (u u' : State) (w : Word) (n : Nat) (rest : List Stimulus) (a : Arbiter),
      run 2 (State.boot wrapCfg 250 Contents.blank wrapOps) = .next u ∧ u.input = .op w n :: rest ∧
      u.performs = some (.arb, u') ∧ u'.arb = some a ∧ u'.sliceElapsed a = true :=
  ⟨wrapOps_safe, _, _, _, _, _, _, rfl, rfl, rfl, rfl, by decide⟩

/-- The TICK, whose gap elapses exactly, across the wrap. -/
theorem test_witness_SafeRunsCompareGapsExactly :
    (∃ s, SafeRun wrapCfg 250 Contents.blank wrapOps s) ∧
    (∀ x, (timesOfOp .tick wrapOps).head? = some x → x ≤ 250 + aliasBound wrapCfg) ∧
    ∃ (u u' : State) (w : Word) (n : Nat) (rest : List Stimulus),
      run 1 (State.boot wrapCfg 250 Contents.blank wrapOps) = .next u ∧ u.input = .op w n :: rest ∧
      u.performs = some (.tick, u') ∧ 0 < (u'.ch .m).len ∧ u'.gapElapsed .m = true :=
  ⟨wrapOps_safe, by intro x hx; obtain rfl := Option.some.inj hx; decide, _, _, _, _, _, rfl, rfl, rfl, by decide,
    by decide⟩

end Sys2Proof.Tests
end

section
/-! The parameters are constant for the life of the block (R13). -/

namespace Sys2Proof.Machine

/-- A step that answers next carries the parameters over, whichever way it went; a reset keeps them too (R13, R160). -/
theorem step_cfg {s t : State} (h : step s = .next t) : t.cfg = s.cfg := by
  cases step_cases h with
  | nothing _ ht => rw [ht]
  | idle _ ht => rw [ht, skip_cfg]
  | reset _ ht => rw [ht, restart_cfg]
  | ignored _ _ ht => rw [ht, sample_cfg]
  | reserved _ _ _ ht => rw [ht, sample_cfg]
  | refused _ _ _ _ ht => rw [ht, sample_cfg]
  | performed _ _ _ he =>
    obtain ⟨hcfg, -⟩ := he.frame
    rw [hcfg, sample_cfg]

/-- Settles O9, by the cases of a step: no case writes `cfg`. -/
theorem parametersNeverChange : Obligations.ParametersNeverChange := fun _ _ => step_cfg

end Sys2Proof.Machine
end

section
/-! The phase rule of R31: the table as a legality test and one phase per operation, and `exec` held to it. -/

namespace Sys2Proof.Machine

/-- The last column of R31: the phase an operation sets, wherever it is legal. -/
def phaseAfter (rx : RxModel) : Instr → Phase
  | .add _ _ => .poll
  | .tick => phaseAfterTick rx
  | .arb => .ctrl
  | .fsw => .ctrl
  | .discard => .ctrl

/-- R31's table is its phase check together with its last column. -/
theorem phaseRule_eq_some {rx : RxModel} {i : Instr} {p q : Phase} :
    phaseRule rx i p = some q ↔ Instr.legalIn i p = true ∧ phaseAfter rx i = q := by
  cases i with
  | tick => cases p <;> cases rx <;> simp [phaseRule, Instr.legalIn, phaseAfter, phaseAfterTick]
  | _ => cases p <;> simp [phaseRule, Instr.legalIn, phaseAfter]

/-- A performed operation leaves the phase of the last column. -/
theorem Effect.phase {i : Instr} {s t : State} (h : Effect i s t) : t.phase = phaseAfter s.cfg.rxModel i := by
  cases h with
  | tick hm hd =>
    obtain ⟨hcfgM, -⟩ := channelTurn_frame hm
    obtain ⟨hcfgD, -⟩ := channelTurn_frame hd
    rw [setPhase_phase, hcfgD, hcfgM, phaseAfter]
  | stored => exact stored_phase ..
  | overflowed => exact overflowed_phase ..
  | _ => rfl

/-- An operation of the interface presented where the table gives no phase fails the phase check. -/
theorem check_of_phaseRule_none {s : State} {i : Instr} (hi : i.inInterface s.cfg.rxModel = true)
    (hn : phaseRule s.cfg.rxModel i s.phase = none) : s.check i = some .outOfPhase := by
  simp [State.check, hi, phaseRule_eq_none.1 hn]

/-- Settles O13: in a phase of the table the operation passes the checks and has its effect; in any other it fails the
phase check. -/
theorem phaseRuleIsKept : Obligations.PhaseRuleIsKept := by
  intro s t i hr hi h
  constructor
  · intro p hp
    obtain ⟨hlegal, hafter⟩ := phaseRule_eq_some.1 hp
    have he : Effect i s t := effect_of_exec hr (check_eq_none.2 ⟨hi, hlegal⟩) h
    obtain ⟨-, hrefused, -⟩ := he.frame
    exact ⟨he.phase.trans hafter, hrefused.trans hr⟩
  · intro hn
    rw [exec_of_check hr (check_of_phaseRule_none hi hn)] at h
    exact (Host.Outcome.next.inj h).symm

end Sys2Proof.Machine
end

section
/-! The outputs other than events (R37), by receiver model. -/

namespace Sys2Proof.Machine

theorem rxen_of_dedicated {s : State} (h : s.cfg.rxModel = .dedicated) (c : Chan) : s.rxen c = true :=
  receivable_iff.2 (.inl h)

theorem activeOut_of_dedicated {s : State} (h : s.cfg.rxModel = .dedicated) : s.activeOut = none := by
  rw [State.activeOut, h]

theorem rxen_of_shared {s : State} {a : Arbiter} (h : s.cfg.rxModel = .shared) (ha : s.arb = some a) (c : Chan) :
    s.rxen c = true ↔ a.active = c := by
  rw [State.rxen, receivable_iff]
  simp [h, ha]

theorem activeOut_of_shared {s : State} {a : Arbiter} (h : s.cfg.rxModel = .shared) (ha : s.arb = some a) :
    s.activeOut = some a.active := by
  rw [State.activeOut, h, ha]
  rfl

/-- Settles O27, output by output under each receiver model. -/
theorem outputsFollowTheActiveChannel : Obligations.OutputsFollowTheActiveChannel := by
  intro s
  constructor
  · intro h
    rw [State.outputs, rxen_of_dedicated h, rxen_of_dedicated h, activeOut_of_dedicated h]
  · intro a h ha
    exact ⟨activeOut_of_shared h ha, rxen_of_shared h ha⟩

end Sys2Proof.Machine
end

section
/-! The rows of R69 as sets of words: the masks as arithmetic on the word's number, and the decoder held to the table. -/

namespace Sys2Proof

/-- ADD's mask keeps bits 15:9, so its row speaks of the word's number above bit 8. -/
theorem and_addMask_eq {w : Word} : w &&& 0xFE00#16 = 0x1000#16 ↔ w.toNat / 512 = 8 := by
  have hmask : (0xFE00#16 : Word) = BitVec.allOnes 16 <<< 9 := by decide
  have hw := w.isLt
  rw [hmask, ← BitVec.shiftLeft_ushiftRight, ← BitVec.toNat_inj, BitVec.toNat_shiftLeft, BitVec.toNat_ushiftRight,
    Nat.shiftRight_eq_div_pow, Nat.shiftLeft_eq, BitVec.toNat_ofNat]
  omega

/-- The mask of the other rows keeps every bit, so such a row is one word. -/
theorem and_fullMask_eq {w : Word} {n : Nat} (h : n < 65536) : w &&& 0xFFFF#16 = BitVec.ofNat 16 n ↔ w.toNat = n := by
  have hmask : (0xFFFF#16 : Word) = BitVec.allOnes 16 := by decide
  rw [hmask, BitVec.and_allOnes, word_eq_ofNat h]

theorem ofBit_chBit (w : Word) : Chan.ofBit (Word.chBit w) = if w.getLsbD 8 = true then .d else .m := by
  have hbit : Word.chBit w = 1#1 ↔ w.getLsbD 8 = true := by
    simp [Word.chBit, BitVec.eq_of_getLsbD_eq_iff]
  simp only [Chan.ofBit, hbit]

theorem data_eq_ofNat (w : Word) : Word.data w = BitVec.ofNat 8 w.toNat := by
  simp [Word.data, BitVec.extractLsb']

/-- The words that carry an operation, with its operands (R65, R69), as arithmetic on the word's number. -/
def Instr.CarriedBy (w : Word) : Instr → Prop
  | .add c b => w.toNat / 512 = 8 ∧ Chan.ofBit (Word.chBit w) = c ∧ Word.data w = b
  | .tick => w.toNat = 0x2000
  | .arb => w.toNat = 0x3000
  | .fsw => w.toNat = 0x4000
  | .discard => w.toNat = 0x5000

theorem decode_eq_op {w : Word} {i : Instr} : decode w = .op i ↔ i.CarriedBy w := by
  rcases decode_cases w with ⟨hw, hd⟩ | ⟨hw, hd⟩ | ⟨hw, hd⟩ | ⟨hw, hd⟩ | ⟨hw, hd⟩ | ⟨h1, h2, h3, h4, h5, hd⟩
  all_goals
    rw [hd]
    cases i <;> simp [Instr.CarriedBy, *] <;> omega

theorem decode_eq_reserved {w : Word} : decode w = .reserved ↔
    w.toNat / 512 ≠ 8 ∧ w.toNat ≠ 0x2000 ∧ w.toNat ≠ 0x3000 ∧ w.toNat ≠ 0x4000 ∧ w.toNat ≠ 0x5000 := by
  rcases decode_cases w with ⟨hw, hd⟩ | ⟨hw, hd⟩ | ⟨hw, hd⟩ | ⟨hw, hd⟩ | ⟨hw, hd⟩ | ⟨h1, h2, h3, h4, h5, hd⟩
  all_goals simp [*]

/-- Settles O4: each mask is arithmetic on the word's number, and so is the decoder. -/
theorem rowsSelectTheirOperation : Obligations.RowsSelectTheirOperation := by
  intro w
  refine ⟨?_, ?_, ?_, ?_, ?_⟩
  · rw [and_addMask_eq, decode_eq_op, ← ofBit_chBit, ← data_eq_ofNat]
    simp [Instr.CarriedBy]
  all_goals rw [and_fullMask_eq (by decide), decode_eq_op, Instr.CarriedBy]

/-- A word is reserved exactly when it matches no row of R69 (R71). -/
theorem decode_eq_reserved_iff_no_row {w : Word} : decode w = .reserved ↔
    ∀ row ∈ [(0x1000#16, 0xFE00#16), (0x2000#16, 0xFFFF#16), (0x3000#16, 0xFFFF#16), (0x4000#16, 0xFFFF#16),
      (0x5000#16, 0xFFFF#16)], w &&& row.2 ≠ row.1 := by
  simp (disch := decide) only [List.forall_mem_cons, List.not_mem_nil, false_imp_iff, imp_true_iff, and_true, ne_eq,
    and_addMask_eq, and_fullMask_eq, decode_eq_reserved]

end Sys2Proof

namespace Sys2Proof.Machine

/-- A reserved word presented while nothing has been refused leaves its mark and nothing else (R71, R146). -/
theorem step_of_reserved {s : State} {w : Word} {t : Nat} {rest : List Stimulus} (hin : s.input = .op w t :: rest)
    (hd : decode w = .reserved) (hr : s.refused = none) :
    step s = .next { s.sample t rest with
      refused := some { reason := .reservedEncoding, word := w, phase := s.phase } } := by
  rw [step_op hin]
  simp [present, hd, State.refuse, hr]

/-- Settles O5: the families of R71 lie outside every row, and such a word is refused first of all. -/
theorem reservedWordsAreRefused : Obligations.ReservedWordsAreRefused := by
  refine ⟨fun w => decode_eq_reserved_iff_no_row, fun w hopc => ?_, fun w hopc hrsv => ?_, fun w hlo hhi hlow => ?_,
    fun s w t rest => step_of_reserved⟩
  all_goals
    rw [decode_eq_reserved]
    omega

end Sys2Proof.Machine
end

section
/-! The configuration check of R70: which operations are part of the interface under which receiver model. -/

namespace Sys2Proof.Machine

theorem inInterface_eq_true {rx : RxModel} {i : Instr} :
    i.inInterface rx = true ↔ (rx = .dedicated → i ≠ .arb ∧ i ≠ .fsw) := by
  rw [← Bool.not_eq_false, inInterface_eq_false]
  tauto

/-- The configuration check comes before the phase check (R147). -/
theorem check_of_not_inInterface {s : State} {i : Instr} (h : i.inInterface s.cfg.rxModel = false) :
    s.check i = some .notInConfiguration := by
  simp [State.check, h]

/-- Settles O12: the arbiter's operations fail the configuration check, whatever the phase. -/
theorem arbiterOperationsNeedTheSharedModel : Obligations.ArbiterOperationsNeedTheSharedModel := by
  refine ⟨fun s i hrx hr hi => ?_, fun i => ?_, fun i => ?_⟩
  · exact exec_of_check hr (check_of_not_inInterface (inInterface_eq_false.2 ⟨hi, hrx⟩))
  all_goals simp [inInterface_eq_true]

end Sys2Proof.Machine
end

section
/-! The accumulator (R91): the one state each case of ADD answers, and what that state holds. -/

namespace Sys2Proof.Machine

/-- Among the performed operations only TICK emits (R38). -/
theorem Effect.evt {i : Instr} {s t : State} (h : Effect i s t) (hi : i ≠ .tick) : t.evt = s.evt := by
  cases h with
  | tick => exact absurd rfl hi
  | arb => split <;> simp
  | _ => simp

/-- Among the performed operations only ARB and FSW write the arbiter (R28, R29). -/
theorem Effect.arb_eq {i : Instr} {s t : State} (h : Effect i s t) (harb : i ≠ .arb) (hfsw : i ≠ .fsw) :
    t.arb = s.arb := by
  cases h with
  | tick hm hd =>
    obtain ⟨-, harbM, -⟩ := channelTurn_frame hm
    obtain ⟨-, harbD, -⟩ := channelTurn_frame hd
    rw [setPhase_arb, harbD, harbM]
  | arb => exact absurd rfl harb
  | fsw => exact absurd rfl hfsw
  | _ => simp

/-- A legal ADD always answers: its only access is at `LEN`, made when there is room. -/
theorem exec_add_next {ch : Chan} {s : State} (b : Byte) (hr : s.refused = none)
    (hp : s.phase = .ctrl ∨ s.phase = .poll) : ∃ t, exec (.add ch b) s = .next t ∧ Effect (.add ch b) s t :=
  have hc := check_add.2 hp
  ⟨_, execAdd_legal hr hc, effect_of_exec hr hc (execAdd_legal hr hc)⟩

section add
variable {ch : Chan} {b : Byte} {s t : State}

theorem Effect.add_dropped (h : Effect (.add ch b) s t) (hrx : s.receivable ch = false) : t = s.setPhase .poll := by
  cases h with
  | dropped => rfl
  | stored hrx' => simp [hrx] at hrx'
  | overflowed hrx' => simp [hrx] at hrx'

theorem Effect.add_stored (h : Effect (.add ch b) s t) (hrx : s.receivable ch = true)
    (hroom : (s.ch ch).len < s.cfg.capacity ch) : t = Machine.stored ch b s := by
  cases h with
  | dropped hrx' => simp [hrx] at hrx'
  | stored => rfl
  | overflowed _ hfull => omega

theorem Effect.add_overflowed (h : Effect (.add ch b) s t) (hrx : s.receivable ch = true)
    (hfull : s.cfg.capacity ch ≤ (s.ch ch).len) : t = Machine.overflowed ch s := by
  cases h with
  | dropped hrx' => simp [hrx] at hrx'
  | stored _ hroom => omega
  | overflowed => rfl

/-- ADD writes the registers of its own channel only (R59). -/
theorem Effect.add_ch_ne (h : Effect (.add ch b) s t) {c : Chan} (hc : c ≠ ch) : t.ch c = s.ch c := by
  simp [h.ch c, hc.symm]

/-- `LAST` is written with room and without (R91). -/
theorem Effect.add_last (h : Effect (.add ch b) s t) (hrx : s.receivable ch = true) : (t.ch ch).last = s.now := by
  rcases lt_or_ge (s.ch ch).len (s.cfg.capacity ch) with hroom | hfull
  · rw [h.add_stored hrx hroom, stored_ch]
  · rw [h.add_overflowed hrx hfull, overflowed_ch]

end add

theorem stored_readByte (ch : Chan) (b : Byte) (s : State) (c : Chan) (i : Nat) :
    (stored ch b s).readByte c i = if c = ch ∧ i = (s.ch ch).len then b else s.readByte c i := by
  by_cases hc : c = ch
  · subst hc
    simp [State.readByte, read_write]
  · simp [State.readByte, stored_ch_ne _ _ _ hc, hc]

theorem overflowed_readByte (ch : Chan) (s : State) (c : Chan) (i : Nat) :
    (overflowed ch s).readByte c i = s.readByte c i := by
  by_cases hc : c = ch
  · subst hc
    simp [State.readByte]
  · simp [State.readByte, overflowed_ch_ne _ _ hc]

/-- Settles O14: the frame holds of every performed ADD; the three cases of R91 each name their next state; in phase
ARB the phase check fails, and `RSV` is outside ADD's row. -/
theorem addStoresDropsOrOverflows : Obligations.AddStoresDropsOrOverflows := by
  refine ⟨fun s ch b hr hp => ?_, fun s ch b hr hp => ?_, fun w hopc hrsv => ?_⟩
  · obtain ⟨t, hexec, he⟩ := exec_add_next (ch := ch) b hr hp
    obtain ⟨hcfg, hrefused, hnow, hinput⟩ := he.frame
    rw [← receivable_iff]
    refine ⟨t, hexec, he.phase, hcfg, he.arb_eq (by simp) (by simp), hrefused, he.evt (by simp), hnow, hinput,
      fun c => he.add_ch_ne, fun hrx => ?_, fun hrx => ⟨he.add_last hrx, fun hroom => ?_, fun hfull => ?_⟩⟩
    · rw [he.add_dropped (by simpa using hrx), setPhase_ch]
    · rw [he.add_stored hrx hroom]
      simp [stored_readByte]
    · rw [he.add_overflowed hrx hfull]
      simp [overflowed_readByte]
  · have hc : s.check (.add ch b) = some .outOfPhase := check_of_phaseRule_none rfl (by rw [hp]; rfl)
    rw [exec_of_check hr hc, hp]
  · rw [decode_eq_reserved]
    omega

end Sys2Proof.Machine
end

section
/-! The segmenter (R100, R101): the records of each channel's turn, the two turns of a TICK, and what its next state
holds. -/

namespace Sys2Proof.Machine

theorem isFrame_of_same {s t : State} {c : Chan} {f : List Byte} (hch : t.ch c = s.ch c) :
    t.IsFrame c f ↔ s.IsFrame c f := by
  simp only [State.IsFrame, State.readByte, hch]

theorem flushEvents_of_same {s t : State} {c : Chan} (f : List Byte) (hcfg : t.cfg = s.cfg) (hch : t.ch c = s.ch c) :
    flushEvents c f t = flushEvents c f s := by
  rw [flushEvents, flushEvents, hcfg, hch]

/-- The records of channel `c`'s turn in a TICK, where its frame is `f`. -/
def turnEvents (c : Chan) (f : List Byte) (s : State) : List Event := if s.due c then flushEvents c f s else []

theorem turnEvents_of_same {s t : State} {c : Chan} (f : List Byte) (hcfg : t.cfg = s.cfg) (hnow : t.now = s.now)
    (hch : t.ch c = s.ch c) : turnEvents c f t = turnEvents c f s := by
  rw [turnEvents, turnEvents, due_of_same hcfg hnow hch, flushEvents_of_same f hcfg hch]

/-- A channel's turn always answers when its frame can be read, and appends the records of that turn. -/
theorem channelTurn_next {c : Chan} {s : State} {f : List Byte} (hf : s.IsFrame c f)
    (hl : (s.ch c).len ≤ s.cfg.capacity c) :
    ∃ t, channelTurn c s = .next t ∧ t.evt = s.evt ++ turnEvents c f s := by
  cases hd : s.due c with
  | false => exact ⟨s, channelTurn_of_not_due hd, by simp [turnEvents, hd]⟩
  | true => exact ⟨flushed c f s, channelTurn_of_due hd (frame_of_isFrame hf hl), by simp [turnEvents, hd]⟩

/-- A legal TICK always answers, and appends M's records before D's (R104): M's turn leaves D's registers alone, so D's
turn is the one D had before the TICK. -/
theorem exec_tick_next {s : State} {fm fd : List Byte} (hr : s.refused = none) (hp : s.phase = .ctrl ∨ s.phase = .poll)
    (hfm : s.IsFrame .m fm) (hfd : s.IsFrame .d fd) (hl : ∀ c, (s.ch c).len ≤ s.cfg.capacity c) :
    ∃ t, exec .tick s = .next t ∧ Effect .tick s t ∧ t.evt = s.evt ++ turnEvents .m fm s ++ turnEvents .d fd s := by
  obtain ⟨s1, hm, hevt1⟩ := channelTurn_next hfm (hl .m)
  obtain ⟨hcfg, -, -, -, hnow, -, hch, -, -⟩ := channelTurn_frame hm
  rw [other_m] at hch
  obtain ⟨s2, hd, hevt2⟩ := channelTurn_next ((isFrame_of_same hch).2 hfd) (by rw [hch, hcfg]; exact hl .d)
  refine ⟨_, ?_, .tick hm hd, ?_⟩
  · refine (execTick_legal hr (check_tick.2 hp)).trans ?_
    rw [hm, andThen_next, hd, andThen_next]
  · rw [setPhase_evt, hevt2, hevt1, turnEvents_of_same fd hcfg hnow hch]

/-- Among the performed operations only ADD writes a byte of the buffers (R22). -/
theorem Effect.readByte_eq {i : Instr} {s t : State} (h : Effect i s t) (hi : ∀ ch b, i ≠ .add ch b) (c : Chan)
    (j : Nat) : t.readByte c j = s.readByte c j := by
  have hbuf : (t.ch c).buf = (s.ch c).buf := by
    rw [h.ch c]
    cases i with
    | add ch b => exact absurd rfl (hi ch b)
    | tick => dsimp only; split <;> rfl
    | _ => rfl
  rw [State.readByte, State.readByte, hbuf]

theorem phaseAfterTick_eq (rx : RxModel) : phaseAfterTick rx = if rx = .shared then .arb else .ctrl := by
  cases rx <;> rfl

/-- Settles O16: both turns answer, so TICK has its effect, whose events, channels, phase and frame are read off it; in
phase ARB the phase check fails, and TICK's row is one word. -/
theorem tickFlushesTheDueChannels : Obligations.TickFlushesTheDueChannels := by
  refine ⟨fun s fm fd dueM dueD hr hp hfm hfd hl hdm hdd => ?_, fun s hr hp => ?_, fun w hlo hhi => ?_⟩
  · obtain rfl : dueM = s.due .m := Bool.eq_iff_iff.2 (hdm.trans due_iff_gapDue.symm)
    obtain rfl : dueD = s.due .d := Bool.eq_iff_iff.2 (hdd.trans due_iff_gapDue.symm)
    obtain ⟨t, hexec, he, hevt⟩ := exec_tick_next hr hp hfm hfd hl
    obtain ⟨hcfg, hrefused, hnow, hinput⟩ := he.frame
    exact ⟨t, hexec, hevt, he.ch .m, he.ch .d, he.readByte_eq (by simp), he.phase.trans (phaseAfterTick_eq _), hcfg,
      he.arb_eq (by simp) (by simp), hrefused, hnow, hinput⟩
  · have hc : s.check .tick = some .outOfPhase := check_of_phaseRule_none rfl (by rw [hp]; rfl)
    rw [exec_of_check hr hc, hp]
    rfl
  · rw [decode_eq_reserved]
    omega

end Sys2Proof.Machine
end

section
/-! The arbiter (R110, R112): when ARB and FSW pass the checks, the one state each answers then, and the refusals. -/

namespace Sys2Proof.Machine

theorem check_arb {s : State} : s.check .arb = none ↔ s.cfg.rxModel = .shared ∧ s.phase = .arb := by
  simp [check_eq_none, Instr.inInterface, Instr.legalIn]

theorem check_fsw {s : State} : s.check .fsw = none ↔ s.cfg.rxModel = .shared ∧ s.phase = .ctrl := by
  simp [check_eq_none, Instr.inInterface, Instr.legalIn]

/-- Every operation is part of the interface under `Shared` (R70), so only the phase check is left. -/
theorem check_of_shared_of_not_legalIn {s : State} {i : Instr} (hrx : s.cfg.rxModel = .shared)
    (hl : Instr.legalIn i s.phase = false) : s.check i = some .outOfPhase :=
  check_of_phaseRule_none (inInterface_eq_true.2 (by simp [hrx])) (phaseRule_eq_none.2 hl)

section legal
variable {s : State} {a : Arbiter}

theorem exec_arb_of_sliceElapsed (hr : s.refused = none) (hc : s.check .arb = none) (ha : s.arb = some a)
    (hs : s.sliceElapsed a = true) : exec .arb s = .next ((s.setArb (a.switch s.now)).setPhase .ctrl) := by
  refine (execArb_legal hr hc ha).trans ?_
  rw [if_pos hs]

theorem exec_arb_of_not_sliceElapsed (hr : s.refused = none) (hc : s.check .arb = none) (ha : s.arb = some a)
    (hs : ¬ s.sliceElapsed a = true) : exec .arb s = .next (s.setPhase .ctrl) := by
  refine (execArb_legal hr hc ha).trans ?_
  rw [if_neg hs]

end legal

/-- Settles O23: in its phase ARB passes the checks and the slice test decides; elsewhere the phase check or, under
`Dedicated`, the configuration check fails; ARB's row is one word. -/
theorem arbSwitchesWhenTheSliceHasElapsed : Obligations.ArbSwitchesWhenTheSliceHasElapsed := by
  refine ⟨fun s a hr hrx hp ha => ?_, fun s hr hrx hp => ?_, fun s hr hrx => ?_, fun w hlo hhi => ?_⟩
  · have hc : s.check .arb = none := check_arb.2 ⟨hrx, hp⟩
    rw [← not_le, ← sliceElapsed_iff]
    exact ⟨exec_arb_of_sliceElapsed hr hc ha, exec_arb_of_not_sliceElapsed hr hc ha⟩
  · exact exec_of_check hr (check_of_shared_of_not_legalIn hrx (by simpa [Instr.legalIn] using hp))
  · exact arbiterOperationsNeedTheSharedModel.1 s .arb hrx hr (.inl rfl)
  · rw [decode_eq_reserved]
    omega

/-- Settles O24: in phase CTRL FSW passes the checks and consults no time; elsewhere the phase check or, under
`Dedicated`, the configuration check fails; FSW's row is one word. -/
theorem fswAlwaysSwitches : Obligations.FswAlwaysSwitches := by
  refine ⟨fun s a hr hrx hp ha => ?_, fun s hr hrx hp => ?_, fun s hr hrx => ?_, fun w hlo hhi => ?_⟩
  · exact execFsw_legal hr (check_fsw.2 ⟨hrx, hp⟩) ha
  · exact exec_of_check hr (check_of_shared_of_not_legalIn hrx (by simpa [Instr.legalIn] using hp))
  · exact arbiterOperationsNeedTheSharedModel.1 s .fsw hrx hr (.inr rfl)
  · rw [decode_eq_reserved]
    omega

end Sys2Proof.Machine
end

section
/-! The scanner (R121): its test of one offset held to the packet it looks for, and what the loop over a frame reports. -/

namespace Sys2Proof.Machine

section packets
variable {f : List Byte} {start : Byte} {len i : Nat}

/-- The test reads the first and the last byte of the window, so an offset that passes it has its window in the frame. -/
theorem packetAt_iff : packetAt f start len i = true ↔ PacketAt f start len i := by
  have hbound : f[i]? = some start → f[i + len - 1]? = some (chk f i len) → i + len ≤ f.length := by
    intro hfirst hlast
    obtain ⟨hi, -⟩ := List.getElem?_eq_some_iff.1 hfirst
    obtain ⟨hj, -⟩ := List.getElem?_eq_some_iff.1 hlast
    omega
  rw [packetAt, Bool.and_eq_true, decide_eq_true_iff, decide_eq_true_iff]
  exact ⟨fun ⟨hfirst, hlast⟩ => ⟨hbound hfirst hlast, hfirst, hlast⟩, fun ⟨_, hfirst, hlast⟩ => ⟨hfirst, hlast⟩⟩

theorem packetAt_eq_false_iff : packetAt f start len i = false ↔ ¬ PacketAt f start len i := by
  rw [← packetAt_iff, Bool.not_eq_true]

/-- Every packet lies in the range of the loop. -/
theorem PacketAt.lt_tries (h : PacketAt f start len i) : i < f.length + 1 - len := by
  obtain ⟨hbound, -⟩ := h
  omega

theorem scan_eq_some_iff :
    scan f start len = some i ↔ PacketAt f start len i ∧ ∀ j, j < i → ¬ PacketAt f start len j := by
  simp only [scan, scanRun, scanFrom_some, packetAt_iff, packetAt_eq_false_iff, Nat.zero_le, true_imp_iff, true_and,
    Nat.zero_add]
  exact and_iff_right_of_imp fun ⟨hi, _⟩ => hi.lt_tries

theorem scan_eq_none_iff : scan f start len = none ↔ ∀ i, ¬ PacketAt f start len i := by
  simp only [scan, scanRun, scanFrom_none, packetAt_eq_false_iff, Nat.zero_le, true_imp_iff, Nat.zero_add]
  exact forall_congr' fun _ => ⟨fun h hi => h hi.lt_tries hi, fun h _ => h⟩

end packets

/-- Settles O17: the loop reports the first offset of its range that passes the test, the test is the packet, and every
packet lies in the range. -/
theorem scanReportsTheFirstPacket : Obligations.ScanReportsTheFirstPacket := fun _ _ _ =>
  ⟨fun _ => scan_eq_some_iff, scan_eq_none_iff⟩

end Sys2Proof.Machine
end

section
/-! The discard at a reconfiguration (R130): when DISCARD passes the checks, and what it answers then and otherwise. -/

namespace Sys2Proof.Machine

theorem check_discard {s : State} : s.check .discard = none ↔ s.phase = .ctrl := by
  simp [check_eq_none, Instr.inInterface, Instr.legalIn]

/-- DISCARD is part of every configuration (R70), so outside phase CTRL it is the phase check that fails (R31). -/
theorem check_discard_of_ne_ctrl {s : State} (hp : s.phase ≠ .ctrl) : s.check .discard = some .outOfPhase :=
  check_of_phaseRule_none rfl (phaseRule_eq_none.2 (by simpa [Instr.legalIn] using hp))

/-- Settles O25: in phase CTRL DISCARD passes the checks and clears each channel; elsewhere the phase check fails;
DISCARD's row is one word. -/
theorem discardClearsBothChannels : Obligations.DiscardClearsBothChannels := by
  refine ⟨fun s hr hp => ?_, fun s hr hp => ?_, fun w hlo hhi => ?_⟩
  · exact execDiscard_legal hr (check_discard.2 hp)
  · exact exec_of_check hr (check_discard_of_ne_ctrl hp)
  · rw [decode_eq_reserved]
    omega

end Sys2Proof.Machine
end

section
/-! The refusals (R146, R147): the word a mark records, and what a presented word answers by the table of reasons. -/

namespace Sys2Proof

/-- A word is its four fields, from the most significant bit down (R65). -/
theorem fields_append (w : Word) : w.opc ++ w.rsv ++ w.chBit ++ w.data = w := by
  unfold Word.opc Word.rsv Word.chBit Word.data
  rw [BitVec.extractLsb'_append_extractLsb'_eq_extractLsb', BitVec.extractLsb'_append_extractLsb'_eq_extractLsb',
    BitVec.extractLsb'_append_extractLsb'_eq_extractLsb']
  · exact BitVec.extractLsb'_eq_self
  all_goals rfl

/-- The channel a `CH` bit names has that bit (R12). -/
@[simp] theorem bit_ofBit (b : BitVec 1) : (Chan.ofBit b).bit = b := by
  rcases BitVec.eq_zero_or_eq_one b with rfl | rfl <;> rfl

/-- A word that decodes to an operation is that operation's word, so a mark's `encode i` is the word presented. -/
theorem encode_of_decode {w : Word} {i : Instr} (h : decode w = .op i) : encode i = w := by
  have hcarried := decode_eq_op.1 h
  cases i with
  | add c b =>
    obtain ⟨hrow, rfl, rfl⟩ := hcarried
    obtain ⟨hopc, hrsv⟩ := opc_rsv_eq.2 hrow
    rw [encode, bit_ofBit, ← hopc, ← hrsv, fields_append]
  | _ => exact ((word_eq_ofNat (by decide)).2 hcarried).symm

end Sys2Proof

namespace Sys2Proof.Machine

section refusals
variable {s u : State} {w : Word} {t : Nat} {rest : List Stimulus}

/-- The table gives no reason exactly for the words that decode to an operation that passes the checks. -/
theorem refusalRule_eq_none :
    refusalRule s.cfg.rxModel s.phase w = none ↔ ∃ i, decode w = .op i ∧ s.check i = none := by
  cases hd : decode w with
  | reserved => simp [refusalRule, hd]
  | op i => simp [refusalRule_of_decode hd]

/-- A word for which the table gives a reason leaves the mark of that reason and nothing else (R146, R147). -/
theorem step_of_refusalRule {r : Reason} (hin : s.input = .op w t :: rest) (hr : s.refused = none)
    (hrule : refusalRule s.cfg.rxModel s.phase w = some r) :
    step s = .next { s.sample t rest with refused := some { reason := r, word := w, phase := s.phase } } := by
  cases hd : decode w with
  | reserved =>
    obtain rfl : .reservedEncoding = r := by simpa [refusalRule, hd] using hrule
    exact step_of_reserved hin hd hr
  | op i =>
    have hcheck : (s.sample t rest).check i = some r := (refusalRule_of_decode hd).symm.trans hrule
    rw [step_op hin, present, hd]
    exact encode_of_decode hd ▸ exec_of_check hr hcheck

/-- Once a mark stands, a presented word only samples the time (R146). -/
theorem step_of_refused {m : Mark} (hin : s.input = .op w t :: rest) (hr : s.refused = some m) :
    step s = .next (s.sample t rest) := by
  rw [step_op hin, present]
  cases decode w with
  | reserved => exact congrArg Host.Outcome.next (refuse_of_some _ _ _ hr)
  | op i => exact exec_of_refused hr

/-- A word for which the table gives no reason is performed, and no effect of an operation sets a mark. -/
theorem refused_eq_none_of_refusalRule_eq_none (hin : s.input = .op w t :: rest) (hr : s.refused = none)
    (hrule : refusalRule s.cfg.rxModel s.phase w = none) (h : step s = .next u) : u.refused = none := by
  obtain ⟨i, hd, hcheck⟩ := refusalRule_eq_none.1 hrule
  have hperforms : s.performs = some (i, s.sample t rest) :=
    performs_eq_some.2 ⟨w, t, rest, hin, hd, hr, rfl, hcheck⟩
  obtain ⟨hexec, hr', hcheck'⟩ := step_of_performs hperforms
  obtain ⟨-, hrefused, -⟩ := (effect_of_exec hr' hcheck' (hexec.symm.trans h)).frame
  exact hrefused.trans hr

end refusals

/-- Settles O10, by what the table of reasons gives for the word when no mark stands, and by the mark when one does. -/
theorem refusalRecordsTheFirstReason : Obligations.RefusalRecordsTheFirstReason :=
  ⟨rfl, rfl, rfl, fun _ _ _ _ hin =>
    ⟨fun _ => step_of_refusalRule hin, fun _ => step_of_refused hin,
      fun _ => refused_eq_none_of_refusalRule_eq_none hin⟩⟩

end Sys2Proof.Machine
end

section
/-! Decoder and encoder as inverses (R65, R69, R72): the two fields of ADD's word, and both round trips. -/

namespace Sys2Proof

/-- A channel is the one its bit names (R12). -/
@[simp] theorem ofBit_bit (c : Chan) : Chan.ofBit c.bit = c := by cases c <;> rfl

theorem chBit_encode_add (c : Chan) (b : Byte) : (encode (.add c b)).chBit = c.bit := by
  rw [encode, Word.chBit, BitVec.extractLsb'_append_eq_of_le (by decide)]
  exact BitVec.extractLsb'_append_eq_right

theorem data_encode_add (c : Chan) (b : Byte) : (encode (.add c b)).data = b :=
  BitVec.extractLsb'_append_eq_right

/-- ADD's word lies in ADD's row, whatever its operands (R69). -/
theorem toNat_encode_add (c : Chan) (b : Byte) : (encode (.add c b)).toNat / 512 = 8 :=
  and_addMask_eq.1 (Laws.Pattern.add c b)

theorem decode_encode (i : Instr) : decode (encode i) = .op i := by
  rw [decode_eq_op]
  cases i with
  | add c b => exact ⟨toNat_encode_add c b, by rw [chBit_encode_add, ofBit_bit], data_encode_add c b⟩
  | _ => rfl

/-- Settles O2: each operation's word lies in its row, and ADD's fields are read back. -/
theorem decodingAnEncodingGivesTheOperation : Obligations.DecodingAnEncodingGivesTheOperation := decode_encode

/-- Settles O3, by the fields of ADD's word and the one word of every other row. -/
theorem everyDecodedWordIsTheEncoding : Obligations.EveryDecodedWordIsTheEncoding := fun _ _ => encode_of_decode

/-- Settles O1: ten words are decoded. -/
theorem wordsOfTheSpecDecode : Obligations.WordsOfTheSpecDecode := by
  unfold Obligations.WordsOfTheSpecDecode
  decide

end Sys2Proof
end

section
/-! One step, by what the host presents (R36, R72, R157, R160). -/

namespace Sys2Proof.Machine

/-- A word that decodes is run with its time sampled (R36, R72). -/
theorem step_of_decode {s : State} {w : Word} {t : Nat} {rest : List Stimulus} {i : Instr}
    (hin : s.input = .op w t :: rest) (hd : decode w = .op i) : step s = exec i (s.sample t rest) := by
  rw [step_op hin, present, hd]

/-- An operation presented by its encoding is the one that is run. -/
theorem step_ofInstr {s : State} {i : Instr} {t : Nat} {rest : List Stimulus}
    (hin : s.input = .ofInstr i t :: rest) : step s = exec i (s.sample t rest) :=
  step_of_decode hin (decode_encode i)

/-- Settles O6: the sampled state is the one written out. -/
theorem stepRunsTheDecodedOperation : Obligations.StepRunsTheDecodedOperation := fun _ _ _ _ _ => step_of_decode

/-- Settles O7, by the two forms of an idle step. -/
theorem idleStepsChangeNothing : Obligations.IdleStepsChangeNothing := fun _ =>
  ⟨step_nil, fun _ => step_idle⟩

/-- A reset in a run leaves the state of a run's start (R161). -/
theorem restart_eq_boot (s : State) (t : Nat) (bytes : Contents) (rest : List Stimulus) :
    s.restart t bytes rest = State.boot s.cfg t bytes rest := rfl

/-- The bytes a reset names are what the buffer holds after it (R22, R160). -/
theorem restart_readByte (s : State) (t : Nat) (bytes : Contents) (rest : List Stimulus) {c : Chan} {i : Nat}
    (hi : i < s.cfg.capacity c) (hb : i < (bytes.of c).length) :
    (bytes.of c)[i]? = some ((s.restart t bytes rest).readByte c i) := by
  have hread : (s.restart t bytes rest).readByte c i = (State.resetOf s.cfg t bytes).readByte c i := by
    cases c <;> rfl
  rw [hread, reset_readByte s.cfg t bytes c hi, List.getElem?_eq_getElem hb]
  rfl

/-- Settles O8: each element of the state after a reset, read off. -/
theorem resetGivesEveryElementItsResetValue : Obligations.ResetGivesEveryElementItsResetValue := by
  intro s t bytes rest hin
  refine ⟨s.restart t bytes rest, step_reset hin, fun c => by simp,
    fun c i => restart_readByte s t bytes rest, fun hrx => ?_, fun hrx => ?_, rfl, rfl, rfl, rfl, rfl⟩
  all_goals simp [hrx]

/-- A step takes one stimulus from the host's stream, whatever comes of it (R36). -/
theorem step_input {s t : State} (h : step s = .next t) : t.input = s.input.tail := by
  cases step_cases h with
  | nothing hin ht => rw [ht, hin]; rfl
  | performed hin _ _ he =>
    obtain ⟨-, -, -, hinput⟩ := he.frame
    rw [hinput, hin, sample_input, List.tail_cons]
  | idle hin ht | reset hin ht | ignored hin _ ht | reserved hin _ _ ht | refused hin _ _ _ ht => rw [ht, hin]; rfl

end Sys2Proof.Machine
end

section
/-! A performed operation as an equation for every element of the state (R20): with the frame, the phase and the
channels already said, the arbiter and the events; and when an operation that passes the checks answers. -/

namespace Sys2Proof.Machine

/-- What a performed operation makes of the arbiter registers (R110, R112). -/
theorem Effect.arb_after {i : Instr} {s t : State} (h : Effect i s t) :
    t.arb = match i with
      | .arb => s.arb.map fun a => if s.sliceElapsed a = true then a.switch s.now else a
      | .fsw => s.arb.map fun a => a.switch s.now
      | _ => s.arb := by
  cases i with
  | arb =>
    cases h with
    | arb ha => split <;> simp [*]
  | fsw =>
    cases h with
    | fsw ha => simp [ha]
  | _ => exact h.arb_eq (by simp) (by simp)

/-- The bytes of a channel below `LEN`, which are its frame (R17), whether or not a read of them would stop. -/
def Channel.bytes (x : Channel) : List Byte := (List.range x.len).map (Memory.read x.buf)

@[simp] theorem Channel.length_bytes (x : Channel) : x.bytes.length = x.len := by simp [Channel.bytes]

theorem Channel.getElem?_bytes {x : Channel} {i : Nat} (h : i < x.len) :
    x.bytes[i]? = some (Memory.read x.buf i) := by
  rw [Channel.bytes, List.getElem?_map, List.getElem?_range h]
  rfl

theorem isFrame_bytes (s : State) (c : Chan) : s.IsFrame c (s.ch c).bytes :=
  ⟨Channel.length_bytes _, fun _ hi => Channel.getElem?_bytes (by simpa using hi)⟩

theorem isFrame_iff {s : State} {c : Chan} {f : List Byte} : s.IsFrame c f ↔ f = (s.ch c).bytes := by
  refine ⟨fun ⟨hlen, hbytes⟩ => List.ext_getElem? fun i => ?_, fun h => h ▸ isFrame_bytes s c⟩
  rcases lt_or_ge i f.length with hi | hi
  · rw [hbytes i hi, Channel.getElem?_bytes (hlen ▸ hi), State.readByte]
  · rw [List.getElem?_eq_none hi, List.getElem?_eq_none (by rwa [Channel.length_bytes, ← hlen])]

/-- A channel's turn appends the records of that turn. -/
theorem channelTurn_evt {c : Chan} {s t : State} (h : channelTurn c s = .next t) :
    t.evt = s.evt ++ turnEvents c (s.ch c).bytes s := by
  rcases channelTurn_cases h with ⟨hd, rfl⟩ | ⟨hd, f, hf, rfl⟩
  · simp [turnEvents, hd]
  · rw [isFrame_iff.1 (isFrame_of_frame hf)]
    simp [turnEvents, hd]

/-- The records of a TICK: M's turn, then D's (R104). -/
def tickEvents (s : State) : List Event :=
  turnEvents .m (s.ch .m).bytes s ++ turnEvents .d (s.ch .d).bytes s

theorem Effect.tick_evt {s t : State} (h : Effect .tick s t) : t.evt = s.evt ++ tickEvents s := by
  cases h with
  | tick hm hd =>
    obtain ⟨hcfg, -, -, -, hnow, -, hch, -, -⟩ := channelTurn_frame hm
    rw [other_m] at hch
    rw [setPhase_evt, channelTurn_evt hd, channelTurn_evt hm, turnEvents_of_same _ hcfg hnow hch, hch, tickEvents,
      List.append_assoc]

/-- What a performed operation makes of the event output (R38). -/
theorem Effect.evt_after {i : Instr} {s t : State} (h : Effect i s t) :
    t.evt = s.evt ++ (if i = .tick then tickEvents s else []) := by
  split
  · subst i
    exact h.tick_evt
  · rw [h.evt ‹_›, List.append_nil]

/-- No access of the operation stops it: the buffers it reads exist, and the arbiter registers are there. -/
def Instr.Answers : Instr → State → Prop
  | .tick, s => ∀ c, s.due c = true → (s.ch c).len ≤ s.cfg.capacity c
  | .arb, s => s.arb ≠ none
  | .fsw, s => s.arb ≠ none
  | .add _ _, _ => True
  | .discard, _ => True

theorem channelTurn_answers {c : Chan} {s : State} (h : s.due c = true → (s.ch c).len ≤ s.cfg.capacity c) :
    ∃ t, channelTurn c s = .next t := by
  cases hd : s.due c with
  | false => exact ⟨_, channelTurn_of_not_due hd⟩
  | true => exact ⟨_, channelTurn_of_due hd (frame_of_isFrame (isFrame_bytes s c) (h hd))⟩

theorem len_le_of_channelTurn {c : Chan} {s t : State} (h : channelTurn c s = .next t) (hd : s.due c = true) :
    (s.ch c).len ≤ s.cfg.capacity c := by
  rcases channelTurn_cases h with ⟨hd', -⟩ | ⟨-, f, hf, -⟩
  · simp [hd] at hd'
  · obtain ⟨-, hbytes⟩ := frame_ok.1 hf
    by_contra hlt
    exact absurd (hbytes (s.cfg.capacity c) (by omega)).1 (lt_irrefl _)

/-- An operation that passes the checks has one of the effects, where no access of it stops. -/
theorem exec_answers {i : Instr} {s : State} (hr : s.refused = none) (hc : s.check i = none)
    (ha : Instr.Answers i s) : ∃ t, exec i s = .next t ∧ Effect i s t := by
  suffices hnext : ∃ t, exec i s = .next t by
    obtain ⟨t, ht⟩ := hnext
    exact ⟨t, ht, effect_of_exec hr hc ht⟩
  cases i with
  | add c b => exact ⟨_, execAdd_legal hr hc⟩
  | tick =>
    obtain ⟨s1, hm⟩ := channelTurn_answers (ha .m)
    obtain ⟨hcfg, -, -, -, hnow, -, hch, -, -⟩ := channelTurn_frame hm
    rw [other_m] at hch
    obtain ⟨s2, hd⟩ := channelTurn_answers (s := s1) (c := .d) (by
      rw [due_of_same hcfg hnow hch, hch, hcfg]
      exact ha .d)
    refine ⟨s2.setPhase (phaseAfterTick s2.cfg.rxModel), (execTick_legal hr hc).trans ?_⟩
    rw [hm, andThen_next, hd, andThen_next]
  | arb =>
    obtain ⟨a, ha⟩ := Option.ne_none_iff_exists'.1 ha
    exact ⟨_, execArb_legal hr hc ha⟩
  | fsw =>
    obtain ⟨a, ha⟩ := Option.ne_none_iff_exists'.1 ha
    exact ⟨_, execFsw_legal hr hc ha⟩
  | discard => exact ⟨_, execDiscard_legal hr hc⟩

theorem Effect.answers {i : Instr} {s t : State} (h : Effect i s t) : Instr.Answers i s := by
  cases h with
  | tick hm hd =>
    obtain ⟨hcfg, -, -, -, hnow, -, hch, -, -⟩ := channelTurn_frame hm
    rw [other_m] at hch
    intro c hdue
    cases c with
    | m => exact len_le_of_channelTurn hm hdue
    | d =>
      have hlen := len_le_of_channelTurn hd ((due_of_same hcfg hnow hch).trans hdue)
      rwa [hch, hcfg] at hlen
  | arb ha => simp [Instr.Answers, ha]
  | fsw ha => simp [Instr.Answers, ha]
  | _ => trivial

end Sys2Proof.Machine
end

section
/-! The invariant: it holds at reset, and every way a step answers keeps it. -/

namespace Sys2Proof.Machine

/-! ## Reset -/

theorem Channel.ok_reset (cap width : Nat) (bytes : List Byte) : Channel.Ok cap width (Channel.reset cap bytes) where
  len_le := Nat.zero_le _
  ovf_full := by simp
  buf_wf := wf_ofBytes _ _
  inside cell hcell := by
    have hrange := mem_ofBytes hcell
    rw [Nat.zero_add] at hrange
    exact hrange.2.trans_le (List.length_take_le _ _)
  last_lt := Nat.two_pow_pos _

theorem boot_ch (cfg : Config) (t : Nat) (bytes : Contents) (ops : List Stimulus) (c : Chan) :
    (State.boot cfg t bytes ops).ch c = Channel.reset (cfg.capacity c) (bytes.of c) := by cases c <;> rfl

theorem boot_inv {cfg : Config} (h : cfg.wf = true) (t : Nat) (bytes : Contents) (ops : List Stimulus) :
    (State.boot cfg t bytes ops).Inv where
  cfg_wf := h
  chan c := boot_ch cfg t bytes ops c ▸ Channel.ok_reset _ _ _
  arb_iff := by cases hrx : cfg.rxModel <;> simp [State.boot, State.resetOf, hrx]
  lsw_lt a ha := by
    cases hrx : cfg.rxModel with
    | dedicated => simp [State.boot, State.resetOf, hrx] at ha
    | shared =>
      obtain rfl : _ = a := by simpa [State.boot, State.resetOf, hrx] using ha
      exact Nat.mod_lt _ (Nat.two_pow_pos _)
  phase_arb hp := by simp [State.boot, State.resetOf] at hp
  now_lt := Nat.mod_lt _ (Nat.two_pow_pos _)
  events e he := by simp [State.boot, State.resetOf] at he

theorem boot_markTrue (cfg : Config) (t : Nat) (bytes : Contents) (ops : List Stimulus) :
    (State.boot cfg t bytes ops).MarkTrue := fun _ hm => nomatch hm

/-- Settles O28, for any contents of the buffers and any stream. -/
theorem resetMeetsTheInvariant : Obligations.ResetMeetsTheInvariant := fun cfg t bytes ops h =>
  ⟨boot_inv h t bytes ops, boot_markTrue cfg t bytes ops⟩

/-! ## The records of a flush -/

theorem kps_wf {cfg : Config} (h : cfg.wf = true) {c : Chan} {k : Kps} (hk : cfg.kps c = some k) : 2 ≤ k.plen := by
  simp only [Config.wf, Bool.and_eq_true, Option.all_eq_true] at h
  obtain ⟨⟨-, hm⟩, hd⟩ := h
  cases c with
  | m => simpa [Kps.wf] using hm k hk
  | d => simpa [Kps.wf] using hd k hk

theorem capacity_pos {cfg : Config} (h : cfg.wf = true) (c : Chan) : 1 ≤ cfg.capacity c := by
  simp only [Config.wf, Bool.and_eq_true, decide_eq_true_iff] at h
  obtain ⟨⟨⟨⟨⟨⟨hm, hd⟩, -⟩, -⟩, -⟩, -⟩, -⟩ := h
  cases c with
  | m => exact hm
  | d => exact hd

theorem gapThreshold_lt {cfg : Config} (h : cfg.wf = true) : cfg.gapThreshold < 2 ^ cfg.timeWidth := by
  simp only [Config.wf, Bool.and_eq_true, decide_eq_true_iff] at h
  obtain ⟨⟨⟨⟨-, hgap⟩, -⟩, -⟩, -⟩ := h
  exact hgap

theorem timeslice_lt {cfg : Config} (h : cfg.wf = true) : cfg.timeslice < 2 ^ cfg.timeWidth := by
  simp only [Config.wf, Bool.and_eq_true, decide_eq_true_iff] at h
  obtain ⟨⟨⟨-, hslice⟩, -⟩, -⟩ := h
  exact hslice

/-- The window of a packet, as R81 records it: its length, its first byte, and its checksum last. -/
theorem PacketAt.window {f : List Byte} {start : Byte} {len i : Nat} (h : PacketAt f start len i) (hlen : 2 ≤ len) :
    ((f.drop i).take len).length = len ∧ ((f.drop i).take len).head? = some start ∧
      ((f.drop i).take len).getLast? =
        some (BitVec.ofNat 8 (((f.drop i).take len).dropLast.map BitVec.toNat).sum) := by
  obtain ⟨hbound, hfirst, hlast⟩ := h
  have hlength : ((f.drop i).take len).length = len := by simp; omega
  refine ⟨hlength, ?_, ?_⟩
  · rw [List.head?_take, if_neg (by omega), List.head?_drop, hfirst]
  · rw [List.getLast?_eq_getElem?, hlength, List.getElem?_take_of_lt (by omega), List.getElem?_drop,
      List.dropLast_eq_take, hlength, List.take_take, Nat.min_eq_left (by omega), ← hlast]
    congr 1
    omega

theorem scanEvents_ok {cfg : Config} (h : cfg.wf = true) {c : Chan} {f : List Byte} (hf : f.length ≤ cfg.capacity c) :
    ∀ e ∈ scanEvents cfg c f, Event.Ok cfg e := by
  intro e he
  unfold scanEvents at he
  split at he
  · simp at he
  · rename_i k hk
    split at he
    · simp at he
    · rename_i i hi
      obtain rfl := List.mem_singleton.1 he
      obtain ⟨hpacket, -⟩ := scan_eq_some_iff.1 hi
      obtain ⟨hlength, hhead, hlast⟩ := hpacket.window (kps_wf h hk)
      exact ⟨k, hk, hlength, hpacket.1.trans hf, hhead, hlast⟩

theorem turnEvents_ok {s : State} (h : s.Inv) (c : Chan) :
    ∀ e ∈ turnEvents c (s.ch c).bytes s, Event.Ok s.cfg e := by
  intro e he
  cases hd : s.due c with
  | false => simp [turnEvents, hd] at he
  | true =>
    obtain ⟨hlen, -⟩ := due_iff_gapDue.1 hd
    have hok := h.chan c
    simp only [turnEvents, hd, if_true, flushEvents, List.mem_cons] at he
    rcases he with rfl | he
    · exact ⟨Channel.length_bytes _, hlen, hok.len_le, hok.ovf_full⟩
    · exact scanEvents_ok h.cfg_wf (by simpa using hok.len_le) e he

theorem tickEvents_ok {s : State} (h : s.Inv) : ∀ e ∈ tickEvents s, Event.Ok s.cfg e := fun e he =>
  (List.mem_append.1 he).elim (turnEvents_ok h .m e) (turnEvents_ok h .d e)

/-! ## The cases of a step -/

/-- A state that differs from one inside the invariant at most in `REFUSED`, the stream and the sampled time. -/
theorem State.Inv.of_same {s t : State} (h : s.Inv) (hcfg : t.cfg = s.cfg) (hch : ∀ c, t.ch c = s.ch c)
    (harb : t.arb = s.arb) (hphase : t.phase = s.phase) (hevt : t.evt = s.evt) (hnow : t.now < 2 ^ t.cfg.timeWidth) :
    t.Inv where
  cfg_wf := hcfg ▸ h.cfg_wf
  chan c := hcfg ▸ hch c ▸ h.chan c
  arb_iff := hcfg ▸ harb ▸ h.arb_iff
  lsw_lt := hcfg ▸ harb ▸ h.lsw_lt
  phase_arb := hcfg ▸ hphase ▸ h.phase_arb
  now_lt := hnow
  events := hcfg ▸ hevt ▸ h.events

theorem State.Inv.sample {s : State} (h : s.Inv) (t : Nat) (rest : List Stimulus) : (s.sample t rest).Inv :=
  h.of_same rfl (sample_ch s t rest) rfl rfl rfl (Nat.mod_lt _ (Nat.two_pow_pos _))

theorem Effect.chan_ok {i : Instr} {s t : State} (he : Effect i s t) (h : s.Inv) (c : Chan) :
    Channel.Ok (s.cfg.capacity c) s.cfg.timeWidth (t.ch c) := by
  have hok := h.chan c
  rw [he.ch c]
  cases i with
  | add c' b =>
    dsimp only
    split
    · split
      · exact hok.store ‹_› h.now_lt
      · exact hok.overflow (by omega) h.now_lt
    · exact hok
  | tick =>
    dsimp only
    split
    · exact hok.clear
    · exact hok
  | arb => exact hok
  | fsw => exact hok
  | discard => exact hok.clear

theorem Effect.arb_isSome {i : Instr} {s t : State} (he : Effect i s t) : t.arb.isSome = s.arb.isSome := by
  rw [he.arb_after]
  cases i <;> simp

theorem Effect.lsw_lt {i : Instr} {s t : State} (he : Effect i s t) (h : s.Inv) :
    ∀ a, t.arb = some a → a.lsw < 2 ^ s.cfg.timeWidth := by
  intro a ha
  rw [he.arb_after] at ha
  cases i with
  | arb =>
    obtain ⟨a0, ha0, rfl⟩ := Option.map_eq_some_iff.1 ha
    split
    · exact h.now_lt
    · exact h.lsw_lt a0 ha0
  | fsw =>
    obtain ⟨a0, -, rfl⟩ := Option.map_eq_some_iff.1 ha
    exact h.now_lt
  | _ => exact h.lsw_lt a ha

theorem phaseAfter_ne_arb {rx : RxModel} {i : Instr} (h : rx ≠ .shared) : phaseAfter rx i ≠ .arb := by
  cases i <;> cases rx <;> simp [phaseAfter, phaseAfterTick] at h ⊢

theorem Effect.inv {i : Instr} {s t : State} (he : Effect i s t) (h : s.Inv) : t.Inv := by
  obtain ⟨hcfg, -, hnow, -⟩ := he.frame
  have hevents : ∀ e ∈ t.evt, Event.Ok s.cfg e := by
    rw [he.evt_after]
    intro e hmem
    rcases List.mem_append.1 hmem with hmem | hmem
    · exact h.events e hmem
    · split at hmem
      · exact tickEvents_ok h e hmem
      · simp at hmem
  refine ⟨?_, ?_, ?_, ?_, fun hp => ?_, ?_, ?_⟩
  all_goals rw [hcfg]
  · exact h.cfg_wf
  · exact he.chan_ok h
  · rw [he.arb_isSome]
    exact h.arb_iff
  · exact he.lsw_lt h
  · by_contra hrx
    exact phaseAfter_ne_arb hrx (he.phase.symm.trans hp)
  · exact hnow ▸ h.now_lt
  · exact hevents

theorem step_inv {s t : State} (h : s.Inv) (hstep : step s = .next t) : t.Inv := by
  cases step_cases hstep with
  | nothing _ ht => exact ht ▸ h
  | idle _ ht => exact ht ▸ h.of_same rfl (skip_ch s _) rfl rfl rfl h.now_lt
  | reset _ ht => exact ht ▸ restart_eq_boot s _ _ _ ▸ boot_inv h.cfg_wf _ _ _
  | ignored _ _ ht => exact ht ▸ h.sample _ _
  | reserved _ _ _ ht | refused _ _ _ _ ht =>
    exact ht ▸ h.of_same rfl (fun c => by cases c <;> rfl) rfl rfl rfl (Nat.mod_lt _ (Nat.two_pow_pos _))
  | performed _ _ _ he => exact he.inv (h.sample _ _)

/-- Settles O29, by the cases of a step; a performed operation is taken element by element. -/
theorem everyStepKeepsTheInvariant : Obligations.EveryStepKeepsTheInvariant := fun _ _ => step_inv

/-! ## No stop -/

/-- Inside the invariant an operation that passes the checks meets no stop: `LEN` is within the buffer (R26), and what
is of the interface has its registers (R33). -/
theorem State.Inv.answers {s : State} (h : s.Inv) {i : Instr} (hc : s.check i = none) : Instr.Answers i s := by
  have harb : s.cfg.rxModel = .shared → s.arb ≠ none := fun hrx => Option.isSome_iff_ne_none.1 (h.arb_iff.2 hrx)
  cases i with
  | add c b => trivial
  | tick => exact fun c _ => (h.chan c).len_le
  | arb => exact harb (check_arb.1 hc).1
  | fsw => exact harb (check_fsw.1 hc).1
  | discard => trivial

theorem exec_next {s : State} (h : s.Inv) (i : Instr) : ∃ t, exec i s = .next t := by
  cases hr : s.refused with
  | some m => exact ⟨s, exec_of_refused hr⟩
  | none =>
    cases hc : s.check i with
    | some r => exact ⟨_, exec_of_check hr hc⟩
    | none =>
      obtain ⟨t, ht, -⟩ := exec_answers hr hc (h.answers hc)
      exact ⟨t, ht⟩

theorem step_next {s : State} (h : s.Inv) : ∃ t, step s = .next t := by
  match hin : s.input with
  | [] => exact ⟨_, step_nil hin⟩
  | .idle :: _ => exact ⟨_, step_idle hin⟩
  | .reset _ _ :: _ => exact ⟨_, step_reset hin⟩
  | .op w t :: rest =>
    rw [step_op hin, present]
    cases decode w with
    | reserved => exact ⟨_, rfl⟩
    | op i => exact exec_next (h.sample t rest) i

/-- Settles O31, by what the host presents and what the checks say. -/
theorem nothingStopsInsideTheInvariant : Obligations.NothingStopsInsideTheInvariant := fun _ h =>
  ⟨step_next h, exec_next h⟩

end Sys2Proof.Machine
end

section
/-! The mark: it says why its word had to be refused, and only a reset takes it away. -/

namespace Sys2Proof.Machine

/-- The reasons of a failed check, in the order of R147. -/
theorem check_eq_some {s : State} {i : Instr} {r : Reason} (h : s.check i = some r) :
    (r = .notInConfiguration ∧ i.inInterface s.cfg.rxModel = false) ∨
      (r = .outOfPhase ∧ i.inInterface s.cfg.rxModel = true ∧ phaseRule s.cfg.rxModel i s.phase = none) := by
  rw [phaseRule_eq_none]
  unfold State.check at h
  split at h
  · split at h
    · cases h
    · exact .inr ⟨(Option.some.inj h).symm, ‹_›, Bool.eq_false_of_not_eq_true ‹_›⟩
  · exact .inl ⟨(Option.some.inj h).symm, Bool.eq_false_of_not_eq_true ‹_›⟩

/-- The mark an operation that fails a check leaves is true. -/
theorem markTrue_of_check {s t : State} {i : Instr} {r : Reason} (hc : s.check i = some r) (hcfg : t.cfg = s.cfg)
    (hphase : t.phase = s.phase) (hr : t.refused = some ⟨r, encode i, s.phase⟩) : t.MarkTrue := by
  intro m hm
  obtain rfl := Option.some.inj (hr.symm.trans hm)
  refine ⟨hphase.symm, ?_⟩
  rcases check_eq_some hc with ⟨rfl, hi⟩ | ⟨rfl, hi, hrule⟩
  · obtain ⟨rfl | rfl, hrx⟩ := inInterface_eq_false.1 hi
    · exact ⟨hcfg ▸ hrx, .inl rfl⟩
    · exact ⟨hcfg ▸ hrx, .inr rfl⟩
  · exact ⟨i, decode_encode i, hcfg ▸ hi, hcfg ▸ hrule⟩

theorem markTrue_of_refused_none {s : State} (h : s.refused = none) : s.MarkTrue := fun m hm => by simp [h] at hm

theorem step_markTrue {s t : State} (h : s.MarkTrue) (hstep : step s = .next t) : t.MarkTrue := by
  cases step_cases hstep with
  | nothing _ ht | idle _ ht | ignored _ _ ht => exact ht ▸ h
  | reset _ ht => exact ht ▸ markTrue_of_refused_none rfl
  | reserved _ _ hd ht =>
    subst ht
    rintro m ⟨⟩
    exact ⟨rfl, hd⟩
  | refused _ _ _ hc ht => exact markTrue_of_check hc (by rw [ht]) (by rw [ht]) (by rw [ht]; rfl)
  | performed _ _ hp he =>
    obtain ⟨-, hr, -⟩ := step_of_performs hp
    obtain ⟨-, hrefused, -⟩ := he.frame
    exact markTrue_of_refused_none (hrefused.trans hr)

/-- Settles O30: the two cases that set a mark set a true one, and no other moves the phase while one stands. -/
theorem everyStepKeepsTheMarkTrue : Obligations.EveryStepKeepsTheMarkTrue := fun _ _ => step_markTrue

/-- A mark stands until a reset (R32, R161). -/
theorem step_refused {s t : State} {m : Mark} (hm : s.refused = some m) (h : step s = .next t) :
    t.refused = if s.resetNext = true then none else some m := by
  cases step_cases h with
  | nothing hin ht | idle hin ht | ignored hin _ ht | reset hin ht => simp [State.resetNext, hin, ht, hm]
  | reserved _ hr | refused _ hr => simp [hm] at hr
  | performed _ _ hp =>
    rw [performs_of_refused hm] at hp
    cases hp

/-- Settles O11, by whether the step is a reset. -/
theorem onlyResetClearsTheRefusal : Obligations.OnlyResetClearsTheRefusal := by
  intro s t m hm h
  have hmark := step_refused hm h
  exact ⟨fun hr => by rw [hmark, hr, if_neg Bool.false_ne_true], fun hr => by rw [hmark, if_pos hr]⟩

end Sys2Proof.Machine
end

section
/-! Runs: how one is taken apart, and what every run from reset keeps. -/

namespace Sys2Proof.Machine

theorem run_succ_of_step {s u : State} (h : step s = .next u) (k : Nat) : run (k + 1) s = run k u := by
  rw [run_succ, h, andThen_next]

theorem run_add_of_run {j : Nat} {s u : State} (h : run j s = .next u) (k : Nat) : run (j + k) s = run k u := by
  rw [run_add, h, andThen_next]

/-- A run of one more step that answers next takes that step first. -/
theorem run_succ_eq_next {k : Nat} {s t : State} (h : run (k + 1) s = .next t) :
    ∃ u, step s = .next u ∧ run k u = .next t := andThen_eq_next h

/-- What every step keeps holds at the end of a run, which never stops if no step does. -/
theorem run_induction {P : State → Prop} (hnext : ∀ s, P s → ∃ t, step s = .next t ∧ P t) (k : Nat) :
    ∀ s, P s → ∃ t, run k s = .next t ∧ P t := by
  induction k with
  | zero => exact fun s hs => ⟨s, rfl, hs⟩
  | succ k ih =>
    intro s hs
    obtain ⟨u, hstep, hu⟩ := hnext s hs
    rw [run_succ_of_step hstep]
    exact ih u hu

/-- Settles O32: the invariant, the truth of the mark and the parameters hold at reset, every step keeps them, and
inside the invariant no step stops. -/
theorem everyRunFromResetCompletes : Obligations.EveryRunFromResetCompletes := by
  intro cfg t bytes ops k h
  refine run_induction (P := fun s => s.Inv ∧ s.MarkTrue ∧ s.cfg = cfg) ?_ k _
    ⟨boot_inv h t bytes ops, boot_markTrue cfg t bytes ops, rfl⟩
  rintro s ⟨hinv, hmark, hcfg⟩
  obtain ⟨u, hu⟩ := step_next hinv
  exact ⟨u, hu, step_inv hinv hu, step_markTrue hmark hu, (step_cfg hu).trans hcfg⟩

end Sys2Proof.Machine
end

section
/-! Who writes what (R22 to R38): a step that is not a reset as an equation for the channels, the arbiter and the
events, and what the equations say of each register. -/

namespace Sys2Proof.Machine

/-- What a received byte makes of a channel (R91): stored while there is room, else dropped with `OVF` set, and `LAST`
written either way. -/
def Channel.receive (cap now : Nat) (x : Channel) (b : Byte) : Channel :=
  if x.len < cap then { buf := Memory.write x.buf x.len b, len := x.len + 1, ovf := x.ovf, last := now }
  else { x with ovf := true, last := now }

section receive
variable {cap now : Nat} {x : Channel} {b : Byte}

@[simp] theorem receive_last : (x.receive cap now b).last = now := by
  unfold Channel.receive
  split <;> rfl

theorem le_receive_len : x.len ≤ (x.receive cap now b).len := by
  unfold Channel.receive
  split
  · exact Nat.le_succ _
  · exact le_refl _

theorem receive_ovf (h : x.ovf = true) : (x.receive cap now b).ovf = true := by
  unfold Channel.receive
  split
  · exact h
  · rfl

/-- The one byte a received byte can change is the one at `LEN` (R22). -/
theorem read_receive {i : Nat} (h : Memory.read (x.receive cap now b).buf i ≠ Memory.read x.buf i) :
    i = x.len ∧ Memory.read (x.receive cap now b).buf i = b := by
  unfold Channel.receive at h ⊢
  split at h
  · rw [if_pos ‹_›]
    by_cases hi : i = x.len
    · exact ⟨hi, hi ▸ read_write_self _ _ _⟩
    · exact absurd (read_write_ne _ _ hi) h
  · exact absurd rfl h

end receive

section
variable {s t : State}

theorem clears_of_resetNext (h : s.resetNext = true) (c : Chan) : s.clears c = true := by simp [State.clears, h]

theorem performs_of_resetNext (h : s.resetNext = true) : s.performs = none :=
  performs_of_not_op fun w n rest hin => by simp [State.resetNext, hin] at h

theorem receives_of_performs_none (h : s.performs = none) (c : Chan) : s.receives c = [] := by
  simp [State.receives, h]

theorem clears_of_performs_none (hr : s.resetNext = false) (h : s.performs = none) (c : Chan) :
    s.clears c = false := by
  simp [State.clears, hr, h]

/-- A step receives one byte of a channel at most, and one that does clears neither. -/
theorem receives_cases (s : State) (c : Chan) :
    s.receives c = [] ∨ ∃ b, s.receives c = [b] ∧ s.clears c = false ∧ s.resetNext = false := by
  cases hp : s.performs with
  | none => exact .inl (receives_of_performs_none hp c)
  | some p =>
    have hr : s.resetNext = false := by
      by_contra hr
      rw [performs_of_resetNext (by simpa using hr)] at hp
      cases hp
    obtain ⟨i, s'⟩ := p
    cases i with
    | add c' b =>
      by_cases hrx : c' = c ∧ s'.receivable c = true
      · exact .inr ⟨b, by simp [State.receives, hp, hrx], by simp [State.clears, hp, hr], hr⟩
      · exact .inl (by simp [State.receives, hp, hrx])
    | _ => exact .inl (by simp [State.receives, hp])

/-- What a step other than a reset makes of a channel: it clears it, or gives it the byte received, or leaves it. -/
theorem step_ch (h : step s = .next t) (hr : s.resetNext = false) (c : Chan) :
    t.ch c = if s.clears c = true then (s.ch c).clear
      else (s.receives c).foldl (Channel.receive (s.cfg.capacity c) t.now) (s.ch c) := by
  rcases step_trichotomy h with ⟨hr', -⟩ | ⟨-, hp, -, hch, -⟩ | ⟨-, i, n, rest, hp, he⟩
  · simp [hr] at hr'
  · simp [hch, clears_of_performs_none hr hp, receives_of_performs_none hp]
  · obtain ⟨-, -, hnow, -⟩ := he.frame
    rw [he.ch c, clears_of_performs hr c hp, receives_of_performs c hp, hnow]
    cases i with
    | add c' b =>
      by_cases hrx : c' = c ∧ (s.sample n rest).receivable c = true
      · simp [hrx, Channel.receive]
      · simp [hrx]
    | _ => simp

/-- A step other than a reset writes the arbiter registers by a performed ARB or FSW only (R28, R29). -/
theorem step_arb (h : step s = .next t) (hr : s.resetNext = false)
    (hi : ∀ s', s.performs ≠ some (.arb, s') ∧ s.performs ≠ some (.fsw, s')) : t.arb = s.arb := by
  rcases step_trichotomy h with ⟨hr', -⟩ | ⟨-, -, -, -, harb, -⟩ | ⟨-, i, n, rest, hp, he⟩
  · simp [hr] at hr'
  · exact harb
  · refine he.arb_eq ?_ ?_ <;> rintro rfl
    · exact (hi _).1 hp
    · exact (hi _).2 hp

/-- The records the next step adds to the event output: a performed TICK's. -/
def State.emits (s : State) : List Event :=
  match s.performs with
  | some (.tick, s') => tickEvents s'
  | _ => []

theorem step_evt (h : step s = .next t) (hr : s.resetNext = false) : t.evt = s.evt ++ s.emits := by
  rcases step_trichotomy h with ⟨hr', -⟩ | ⟨-, hp, -, -, -, -, hevt⟩ | ⟨-, i, n, rest, hp, he⟩
  · simp [hr] at hr'
  · simp [State.emits, hp, hevt]
  · rw [he.evt_after, sample_evt, State.emits, hp]
    cases i <;> simp

theorem performs_tick_of_emits (h : s.emits ≠ []) : ∃ s', s.performs = some (.tick, s') := by
  unfold State.emits at h
  split at h
  · exact ⟨_, ‹_›⟩
  · exact absurd rfl h

end

/-- Settles O33: a step that performs neither leaves the registers. -/
theorem onlyArbAndFswWriteTheArbiter : Obligations.OnlyArbAndFswWriteTheArbiter := by
  intro s t h hr hne
  by_contra hnot
  push Not at hnot
  exact hne (step_arb h hr hnot)

/-- Settles O34, by the records a step adds. -/
theorem onlyTickEmits : Obligations.OnlyTickEmits := fun s _ h hr =>
  ⟨s.emits, step_evt h hr, performs_tick_of_emits⟩

/-- Settles O35: a clear keeps the buffer, and a received byte changes the one at `LEN`. -/
theorem onlyAddWritesTheBuffer : Obligations.OnlyAddWritesTheBuffer := by
  intro s t c i h hr hne
  simp only [State.readByte, step_ch h hr c] at hne ⊢
  rcases receives_cases s c with hrec | ⟨b, hrec, hclear, -⟩
  · rw [hrec] at hne
    split at hne <;> exact absurd rfl hne
  · rw [hrec, hclear, if_neg Bool.false_ne_true, List.foldl_cons, List.foldl_nil] at hne ⊢
    obtain ⟨hi, hb⟩ := read_receive hne
    exact ⟨hi, b, rfl, hb⟩

theorem len_ovf_of_clears {s t : State} {c : Chan} (h : step s = .next t) (hc : s.clears c = true) :
    (t.ch c).len = 0 ∧ (t.ch c).ovf = false := by
  cases hr : s.resetNext with
  | true =>
    rcases step_trichotomy h with ⟨-, n, b, rest, -, rfl⟩ | ⟨hr', -⟩ | ⟨hr', -⟩
    · simp
    all_goals simp [hr] at hr'
  | false => simp [step_ch h hr c, hc]

theorem ch_of_not_clears {s t : State} {c : Chan} (h : step s = .next t) (hc : s.clears c = false) :
    t.ch c = (s.receives c).foldl (Channel.receive (s.cfg.capacity c) t.now) (s.ch c) := by
  have hr : s.resetNext = false := by
    by_contra hr
    simp [clears_of_resetNext (Bool.eq_true_of_not_eq_false hr)] at hc
  simp [step_ch h hr c, hc]

theorem len_ovf_of_receives_nil {s t : State} {c : Chan} (h : step s = .next t) (hrec : s.receives c = []) :
    (t.ch c).len ≤ (s.ch c).len ∧ ((t.ch c).ovf = true → (s.ch c).ovf = true) := by
  cases hc : s.clears c with
  | true => simp [len_ovf_of_clears h hc]
  | false => simp [ch_of_not_clears h hc, hrec]

/-- Settles O36: a clear zeroes both registers; else the channel is left alone or given a byte, which lowers neither. -/
theorem onlyAClearLowersLengthOrOverflow : Obligations.OnlyAClearLowersLengthOrOverflow := by
  intro s t c h
  refine ⟨fun hc => ?_, len_ovf_of_clears h, len_ovf_of_receives_nil h⟩
  rw [ch_of_not_clears h hc]
  rcases receives_cases s c with hrec | ⟨b, hrec, -⟩
  · simp [hrec]
  · rw [hrec]
    exact ⟨le_receive_len, receive_ovf⟩

/-- `LAST` after a step that is not a reset (R25). -/
theorem step_last {s t : State} (h : step s = .next t) (hr : s.resetNext = false) (c : Chan) :
    (t.ch c).last = if s.receives c = [] then (s.ch c).last else t.now := by
  rw [step_ch h hr c]
  rcases receives_cases s c with hrec | ⟨b, hrec, hclear, -⟩
  · rw [hrec]
    split <;> simp
  · simp [hrec, hclear]

/-- Settles O37, by the cases of `LAST` after a step. -/
theorem onlyReceivedBytesWriteLast : Obligations.OnlyReceivedBytesWriteLast := by
  intro s t c h hr
  rw [step_last h hr c]
  exact ⟨fun hrec => if_pos hrec, fun hrec => if_neg hrec⟩

end Sys2Proof.Machine
end

section
/-! The time tests and the scanner's arithmetic (R15, R102, R110, R121, R122, R125, R166). -/

namespace Sys2Proof.Machine

/-- A sampled time less than `2^TIME_WIDTH` after another is compared exactly. -/
theorem elapsed_of_le {w t0 t : Nat} (hle : t0 ≤ t) (hlt : t - t0 < 2 ^ w) :
    elapsed w (t % 2 ^ w) (t0 % 2 ^ w) = t - t0 := by
  obtain ⟨d, rfl⟩ := Nat.exists_eq_add_of_le hle
  rw [Nat.add_sub_cancel_left] at hlt ⊢
  exact elapsed_sampled hlt

/-- Settles O20: both tests compare the one elapsed time, which is the true one. -/
theorem sampledTimesCompareExactly : Obligations.SampledTimesCompareExactly := by
  intro s t0 t hnow hle hlt
  refine ⟨fun c hlast => ?_, fun a hlsw => ?_⟩
  · rw [State.gapElapsed, hnow, hlast, elapsed_of_le hle hlt, decide_eq_true_iff]
  · rw [State.sliceElapsed, hnow, hlsw, elapsed_of_le hle hlt, decide_eq_true_iff]

/-- The bound of R166 leaves room for an age below either threshold. -/
theorem max_thresholds_lt {cfg : Config} (h : cfg.wf = true) :
    max cfg.gapThreshold cfg.timeslice < 2 ^ cfg.timeWidth :=
  max_lt (gapThreshold_lt h) (timeslice_lt h)

/-- Settles O21: the age at the second evaluation is below `2^TIME_WIDTH`. -/
theorem aliasingDutyKeepsComparisonsExact : Obligations.AliasingDutyKeepsComparisonsExact := by
  intro cfg t0 d gap hwf hd hgap
  have hmax := max_thresholds_lt hwf
  rw [Nat.add_assoc]
  exact elapsed_sampled (by omega)

/-- An 8-bit accumulator holds the sum modulo 256, from wherever it starts. -/
theorem foldl_add_eq_sum (l : List Byte) (a : Byte) :
    l.foldl (· + ·) a = a + BitVec.ofNat 8 (l.map BitVec.toNat).sum := by
  induction l generalizing a with
  | nil => simp
  | cons b l ih => rw [List.foldl_cons, ih, List.map_cons, List.sum_cons, BitVec.ofNat_add, BitVec.ofNat_toNat,
      BitVec.setWidth_eq, BitVec.add_assoc]

/-- Settles O18: the accumulator starts at 0. -/
theorem checksumIsAWrappingAccumulator : Obligations.ChecksumIsAWrappingAccumulator := by
  intro f i len
  rw [foldl_add_eq_sum, BitVec.zero_add, chk]

section scan
variable (f : List Byte) (start : Byte) (len : Nat)

/-- The loop stops at the offset it finds, or has tried them all. -/
theorem scanFrom_tried (tries i : Nat) :
    (∀ j, (scanFrom f start len tries i).found = some j → i + (scanFrom f start len tries i).tried = j + 1) ∧
      ((scanFrom f start len tries i).found = none → (scanFrom f start len tries i).tried = tries) := by
  induction tries generalizing i with
  | zero => simp [scanFrom]
  | succ n ih =>
    obtain ⟨hsome, hnone⟩ := ih (i + 1)
    unfold scanFrom
    split
    · simp
    · refine ⟨fun j hj => ?_, fun hj => congrArg (· + 1) (hnone hj)⟩
      have htried := hsome j hj
      dsimp only
      omega

theorem scanFrom_tried_le (tries i : Nat) : (scanFrom f start len tries i).tried ≤ tries := by
  induction tries generalizing i with
  | zero => simp [scanFrom]
  | succ n ih =>
    unfold scanFrom
    split
    · simp
    · exact Nat.succ_le_succ (ih (i + 1))

/-- A tried offset adds bytes only if it holds the start byte. -/
theorem addedAt_eq (i : Nat) : addedAt f start len i = (if f[i]? = some start then 1 else 0) * (len - 1) := by
  unfold addedAt
  split <;> simp

theorem scanFrom_added (tries i : Nat) :
    (scanFrom f start len tries i).added =
      ((List.range' i (scanFrom f start len tries i).tried).countP fun j => decide (f[j]? = some start)) *
        (len - 1) := by
  induction tries generalizing i with
  | zero => simp [scanFrom]
  | succ n ih =>
    unfold scanFrom
    split
    · simp [addedAt_eq, List.range'_succ, List.countP_cons]
    · simp only [addedAt_eq, ih, List.range'_succ, List.countP_cons, decide_eq_true_eq, Nat.add_mul]

end scan

/-- Settles O19: the loop over a frame starts at offset 0; the offsets it counts are among those it tried. -/
theorem scanWorkIsBounded : Obligations.ScanWorkIsBounded := by
  intro f start len cap hcap
  obtain ⟨hsome, hnone⟩ := scanFrom_tried f start len (f.length + 1 - len) 0
  have hadded := scanFrom_added f start len (f.length + 1 - len) 0
  rw [← List.range_eq_range'] at hadded
  have htried : (scanRun f start len).tried ≤ cap + 1 - len :=
    (scanFrom_tried_le f start len _ 0).trans (by omega)
  refine ⟨fun i hi => (Nat.zero_add _).symm.trans (hsome i hi), hnone, hadded, htried, ?_⟩
  rw [show (scanRun f start len).added = _ from hadded]
  refine Nat.mul_le_mul_right _ (List.countP_le_length.trans ?_)
  rwa [List.length_range]

/-- A TICK leaves no channel due at its own time: what was due is empty, and what was not has not changed (R54). -/
theorem not_due_after_tick {s t : State} (h : Effect .tick s t) (c : Chan) : t.due c = false := by
  obtain ⟨hcfg, -, hnow, -⟩ := h.frame
  cases hd : s.due c with
  | true =>
    have hlen : (t.ch c).len = 0 := by simp [h.ch c, hd]
    simp [State.due, hlen]
  | false => exact (due_of_same hcfg hnow (by simp [h.ch c, hd])).trans hd

theorem turnEvents_of_not_due {s : State} {c : Chan} (f : List Byte) (h : s.due c = false) : turnEvents c f s = [] := by
  simp [turnEvents, h]

/-- Settles O22: under `Dedicated` a TICK ends in phase CTRL, so the second one passes the checks, and finds nothing
due. -/
theorem repeatedTickEmitsNothingNew : Obligations.RepeatedTickEmitsNothingNew := by
  intro s t hinv hrx hr hexec
  have hphase : s.phase = .ctrl ∨ s.phase = .poll := by
    cases hp : s.phase with
    | arb => simp [hinv.phase_arb hp] at hrx
    | _ => simp
  have he := effect_of_exec hr (check_tick.2 hphase) hexec
  obtain ⟨-, hrefused, -⟩ := he.frame
  have hcheck : t.check .tick = none := check_tick.2 (.inl (by rw [he.phase, hrx]; rfl))
  obtain ⟨u, hu, he'⟩ := exec_answers (hrefused.trans hr) hcheck ((he.inv hinv).answers hcheck)
  have hdue := not_due_after_tick he
  refine ⟨u, hu, ?_, fun c => ?_⟩
  · rw [he'.tick_evt, tickEvents, turnEvents_of_not_due _ (hdue .m), turnEvents_of_not_due _ (hdue .d),
      List.append_nil, List.append_nil]
  · simpa [hdue] using he'.ch c

end Sys2Proof.Machine
end

section
/-! Independence of the channels (R59): what an operation makes of a channel, and the records of a channel, from that
channel alone; two ADDs on different channels. -/

namespace Sys2Proof.Machine

theorem receivable_of_same {s t : State} {c : Chan} (hcfg : t.cfg = s.cfg) (harb : t.arb = s.arb) :
    t.receivable c = s.receivable c := by
  rw [State.receivable, State.receivable, hcfg, harb]

theorem check_of_same {s t : State} {i : Instr} (hcfg : t.cfg = s.cfg) (hphase : t.phase = s.phase) :
    t.check i = s.check i := by
  rw [State.check, State.check, hcfg, hphase]

theorem Effect.ch_of_same {i : Instr} {s s' u u' : State} {c : Chan} (he : Effect i s s') (he' : Effect i u u')
    (hcfg : s.cfg = u.cfg) (harb : s.arb = u.arb) (hnow : s.now = u.now) (hch : s.ch c = u.ch c) :
    s'.ch c = u'.ch c := by
  rw [he.ch c, he'.ch c, due_of_same hcfg hnow hch, receivable_of_same hcfg harb, hcfg, hnow, hch]
  cases i <;> rfl

/-! ## The records of one channel -/

theorem eventsOf_append (c : Chan) (l l' : List Event) : eventsOf c (l ++ l') = eventsOf c l ++ eventsOf c l' :=
  List.filter_append l l'

theorem scanEvents_channel {cfg : Config} {c : Chan} {f : List Byte} : ∀ e ∈ scanEvents cfg c f, e.channel = c := by
  intro e he
  unfold scanEvents at he
  split at he
  · simp at he
  · split at he
    · simp at he
    · rw [List.mem_singleton.1 he, Event.channel]

theorem turnEvents_channel {c : Chan} {f : List Byte} {s : State} : ∀ e ∈ turnEvents c f s, e.channel = c := by
  intro e he
  cases hd : s.due c with
  | false => simp [turnEvents, hd] at he
  | true =>
    simp only [turnEvents, hd, if_true, flushEvents, List.mem_cons] at he
    rcases he with rfl | he
    · rfl
    · exact scanEvents_channel e he

/-- The records of a TICK for a channel are those of that channel's turn. -/
theorem eventsOf_tickEvents (c : Chan) (s : State) : eventsOf c (tickEvents s) = turnEvents c (s.ch c).bytes s := by
  have hself : eventsOf c (turnEvents c (s.ch c).bytes s) = turnEvents c (s.ch c).bytes s :=
    List.filter_eq_self.2 fun e he => decide_eq_true (turnEvents_channel e he)
  have hother : eventsOf c (turnEvents c.other (s.ch c.other).bytes s) = [] :=
    List.filter_eq_nil_iff.2 fun e he => by simp [turnEvents_channel e he]
  rw [tickEvents, eventsOf_append]
  cases c with
  | m => rw [hself, ← other_m, hother, List.append_nil]
  | d => rw [hself, ← other_d, hother, List.nil_append]

/-- Settles O38: a refused operation changes no channel and emits nothing; a performed one makes of the channel what its
own registers, the arbiter and the time say, and emits for it the records of its own turn. -/
theorem channelsAreIndependent : Obligations.ChannelsAreIndependent := by
  intro s u s' u' i c hcfg harb hphase hrefused hnow hch hs hu
  have hcheck : s.check i = u.check i := check_of_same hcfg hphase
  cases hr : s.refused with
  | some m =>
    rw [exec_of_refused hr] at hs
    rw [exec_of_refused (hrefused ▸ hr)] at hu
    cases hs
    cases hu
    exact ⟨hch, [], by simp⟩
  | none =>
    cases hc : s.check i with
    | some r =>
      rw [exec_of_check hr hc] at hs
      rw [exec_of_check (hrefused ▸ hr) (hcheck ▸ hc)] at hu
      cases hs
      cases hu
      exact ⟨by cases c <;> exact hch, [], by simp⟩
    | none =>
      have he := effect_of_exec hr hc hs
      have he' := effect_of_exec (hrefused ▸ hr) (hcheck ▸ hc) hu
      refine ⟨he.ch_of_same he' hcfg harb hnow hch, if i = .tick then turnEvents c (s.ch c).bytes s else [], ?_, ?_⟩
      · rw [he.evt_after, eventsOf_append]
        split
        · rw [eventsOf_tickEvents]
        · rfl
      · rw [he'.evt_after, eventsOf_append]
        split
        · rw [eventsOf_tickEvents, ← hch, turnEvents_of_same _ hcfg hnow hch]
        · rfl

/-! ## ADD -/

/-- What a performed ADD makes of its own channel. -/
theorem Effect.add_ch {c : Chan} {b : Byte} {s t : State} (h : Effect (.add c b) s t) :
    t.ch c = if s.receivable c = true then (s.ch c).receive (s.cfg.capacity c) s.now b else s.ch c := by
  simp [h.ch c, Channel.receive]

/-- An ADD leaves the phase POLL, in which the next one is legal. -/
theorem exec_add_after_add {c c' : Chan} {b : Byte} {s t : State} (h : Effect (.add c b) s t) (hr : s.refused = none)
    (b' : Byte) : ∃ u, exec (.add c' b') t = .next u ∧ Effect (.add c' b') t u := by
  obtain ⟨-, hrefused, -⟩ := h.frame
  exact exec_add_next b' (hrefused.trans hr) (.inr h.phase)

/-- Settles O39: the second ADD is legal after the first, and either order gives each channel the byte of its own
ADD. -/
theorem addsOnDifferentChannelsCommute : Obligations.AddsOnDifferentChannelsCommute := by
  intro s bm bd hr hp
  obtain ⟨sm, hexecM, hm⟩ := exec_add_next (ch := .m) bm hr hp
  obtain ⟨sd, hexecD, hd⟩ := exec_add_next (ch := .d) bd hr hp
  obtain ⟨smd, hexecMD, hmd⟩ := exec_add_after_add (c' := .d) hm hr bd
  obtain ⟨sdm, hexecDM, hdm⟩ := exec_add_after_add (c' := .m) hd hr bm
  obtain ⟨hcfgM, hrefusedM, hnowM, hinputM⟩ := hm.frame
  obtain ⟨hcfgD, hrefusedD, hnowD, hinputD⟩ := hd.frame
  obtain ⟨hcfgMD, hrefusedMD, hnowMD, hinputMD⟩ := hmd.frame
  obtain ⟨hcfgDM, hrefusedDM, hnowDM, hinputDM⟩ := hdm.frame
  have harbM := hm.arb_eq (by simp) (by simp)
  have harbD := hd.arb_eq (by simp) (by simp)
  have hsame : smd = sdm := by
    refine state_ext ?_ (fun c => ?_) ?_ (hmd.phase.trans hdm.phase.symm) ?_ ?_ ?_ ?_
    · rw [hcfgMD, hcfgM, hcfgDM, hcfgD]
    · cases c with
      | m =>
        rw [hmd.add_ch_ne (by simp)]
        exact hm.ch_of_same hdm hcfgD.symm harbD.symm hnowD.symm (hd.add_ch_ne (by simp)).symm
      | d =>
        rw [hdm.add_ch_ne (by simp)]
        exact (hd.ch_of_same hmd hcfgM.symm harbM.symm hnowM.symm (hm.add_ch_ne (by simp)).symm).symm
    · rw [hmd.arb_eq (by simp) (by simp), harbM, hdm.arb_eq (by simp) (by simp), harbD]
    · rw [hrefusedMD, hrefusedM, hrefusedDM, hrefusedD]
    · rw [hmd.evt (by simp), hm.evt (by simp), hdm.evt (by simp), hd.evt (by simp)]
    · rw [hnowMD, hnowM, hnowDM, hnowD]
    · rw [hinputMD, hinputM, hinputDM, hinputD]
  refine ⟨smd, ?_, ?_⟩
  · rw [hexecM, andThen_next, hexecMD]
  · rw [hexecD, andThen_next, hexecDM, hsame]

end Sys2Proof.Machine
end

section
/-! Lists of ADDs: the state a list of presented bytes ends in (R83, R91), and what is left of them in a channel
(R92). -/

namespace Sys2Proof.Machine

/-- A byte presented for a channel at a time, as `HostCycle.bytes` lists them. -/
abbrev Delivery := Chan × Byte × Nat

def Delivery.stimulus (p : Delivery) : Stimulus := .ofInstr (.add p.1 p.2.1) p.2.2

/-- What a presented byte makes of channel `c` while `c` is receivable. -/
def Channel.deliver (cfg : Config) (c : Chan) (x : Channel) (p : Delivery) : Channel :=
  if p.1 = c then x.receive (cfg.capacity c) (p.2.2 % 2 ^ cfg.timeWidth) p.2.1 else x

/-- `t` is `s` after the presented bytes `bs`: the channels that are receivable have taken theirs, the phase and the
time have moved, and nothing else of the block has changed. -/
structure Delivered (s : State) (bs : List Delivery) (t : State) : Prop where
  cfg : t.cfg = s.cfg
  arb : t.arb = s.arb
  evt : t.evt = s.evt
  refused : t.refused = none
  phase : t.phase = if bs = [] then s.phase else .poll
  now : t.now = bs.foldl (fun _ p => p.2.2 % 2 ^ s.cfg.timeWidth) s.now
  ch : ∀ c, t.ch c = if s.receivable c = true then bs.foldl (Channel.deliver s.cfg c) (s.ch c) else s.ch c

theorem step_add {s : State} {p : Delivery} {rest : List Stimulus} (hr : s.refused = none)
    (hp : s.phase = .ctrl ∨ s.phase = .poll) (hin : s.input = p.stimulus :: rest) :
    ∃ t, step s = .next t ∧ Delivered s [p] t := by
  obtain ⟨t, ht, he⟩ := exec_add_next (s := s.sample p.2.2 rest) (ch := p.1) p.2.1 hr hp
  obtain ⟨hcfg, hrefused, hnow, -⟩ := he.frame
  refine ⟨t, (step_ofInstr hin).trans ht, hcfg, he.arb_eq (by simp) (by simp), he.evt (by simp), hrefused.trans hr,
    he.phase, hnow, fun c => ?_⟩
  have hrx : (s.sample p.2.2 rest).receivable c = s.receivable c := rfl
  rw [List.foldl_cons, List.foldl_nil, Channel.deliver]
  by_cases hc : p.1 = c
  · subst hc
    simp [he.add_ch, hrx]
  · simp [he.add_ch_ne (Ne.symm hc), hc]

theorem Delivered.cons {s u t : State} {p : Delivery} {bs : List Delivery} (h : Delivered s [p] u)
    (h' : Delivered u bs t) : Delivered s (p :: bs) t where
  cfg := h'.cfg.trans h.cfg
  arb := h'.arb.trans h.arb
  evt := h'.evt.trans h.evt
  refused := h'.refused
  phase := by rw [h'.phase, h.phase]; simp
  now := by rw [h'.now, h.now, h.cfg]; rfl
  ch c := by
    rw [h'.ch c, receivable_of_same h.cfg h.arb, h.ch c, h.cfg]
    split <;> rfl

/-- Presented bytes are taken one after another, whatever the channels. -/
theorem run_deliveries {bs : List Delivery} {rest : List Stimulus} : ∀ {s : State}, s.refused = none →
    s.phase = .ctrl ∨ s.phase = .poll → s.input = bs.map Delivery.stimulus ++ rest →
      ∃ t, run bs.length s = .next t ∧ t.input = rest ∧ Delivered s bs t := by
  induction bs with
  | nil => exact fun hr _ hin => ⟨_, rfl, hin, rfl, rfl, rfl, hr, rfl, rfl, fun c => by simp⟩
  | cons p bs ih =>
    intro s hr hp hin
    obtain ⟨u, hstep, hu⟩ := step_add hr hp hin
    obtain ⟨t, hrun, hinput, ht⟩ := ih hu.refused (.inr hu.phase) (by rw [step_input hstep, hin]; rfl)
    exact ⟨t, (run_succ_of_step hstep _).trans hrun, hinput, hu.cons ht⟩

/-! ## What a channel holds -/

/-- The channel holds what is left of the bytes `bs` received since it was empty (R92): the first `CAPACITY` of them, in
order, and whether there were more. -/
structure Channel.Holds (cap : Nat) (bs : List Byte) (x : Channel) : Prop where
  ovf : x.ovf = decide (cap < bs.length)
  bytes : x.bytes = bs.take cap

theorem Channel.Holds.len {cap : Nat} {bs : List Byte} {x : Channel} (h : x.Holds cap bs) :
    x.len = min bs.length cap := by
  rw [← Channel.length_bytes, h.bytes, List.length_take, Nat.min_comm]

theorem holds_nil {cap : Nat} {x : Channel} (hlen : x.len = 0) (hovf : x.ovf = false) : x.Holds cap [] :=
  ⟨by simp [hovf], by simp [Channel.bytes, hlen]⟩

/-- A stored byte comes after the bytes already there. -/
theorem bytes_store (x : Channel) (b : Byte) (ovf : Bool) (now : Nat) :
    Channel.bytes { buf := Memory.write x.buf x.len b, len := x.len + 1, ovf := ovf, last := now } =
      x.bytes ++ [b] := by
  simp only [Channel.bytes, List.range_succ, List.map_append, List.map_singleton, read_write_self]
  congr 1
  refine List.map_congr_left fun i hi => read_write_ne _ _ ?_
  have := List.mem_range.1 hi
  omega

theorem Channel.Holds.receive {cap now : Nat} {bs : List Byte} {x : Channel} (h : x.Holds cap bs) (b : Byte) :
    (x.receive cap now b).Holds cap (bs ++ [b]) := by
  have hlen := h.len
  unfold Channel.receive
  split
  · refine ⟨?_, ?_⟩
    · simp only [h.ovf, List.length_append, List.length_singleton]
      congr 1
      apply propext
      omega
    · rw [bytes_store, h.bytes, List.take_of_length_le (by omega), List.take_of_length_le (by simp; omega)]
  · refine ⟨?_, ?_⟩
    · simp
      omega
    · rw [List.take_append_of_le_length (by omega), ← h.bytes]
      rfl

theorem Channel.Holds.foldl_receive {cap now : Nat} {bs : List Byte} {x : Channel} (h : x.Holds cap bs)
    (l : List Byte) : (l.foldl (Channel.receive cap now) x).Holds cap (bs ++ l) := by
  induction l generalizing bs x with
  | nil => simpa using h
  | cons b l ih => simpa using ih (h.receive b)

/-- Bytes all presented for the channel. -/
theorem Channel.Holds.foldl_deliver {cfg : Config} {c : Chan} {bs : List Byte} {x : Channel}
    (h : x.Holds (cfg.capacity c) bs) {l : List Delivery} (hl : ∀ p ∈ l, p.1 = c) :
    (l.foldl (Channel.deliver cfg c) x).Holds (cfg.capacity c) (bs ++ l.map fun p => p.2.1) := by
  induction l generalizing bs x with
  | nil => simpa using h
  | cons p l ih =>
    obtain ⟨hp, hl⟩ := List.forall_mem_cons.1 hl
    rw [List.foldl_cons, Channel.deliver, if_pos hp]
    simpa using ih (h.receive p.2.1) hl

theorem foldl_deliver_of_ne {cfg : Config} {c : Chan} {x : Channel} {l : List Delivery} (hl : ∀ p ∈ l, p.1 ≠ c) :
    l.foldl (Channel.deliver cfg c) x = x := by
  induction l with
  | nil => rfl
  | cons p l ih =>
    obtain ⟨hp, hl⟩ := List.forall_mem_cons.1 hl
    rw [List.foldl_cons, Channel.deliver, if_neg hp, ih hl]

/-- `LAST` is the time of the last byte of the list. -/
theorem last_foldl_deliver {cfg : Config} {c : Chan} {x : Channel} {l : List Delivery} {p : Delivery}
    (hp : l.getLast? = some p) (hc : p.1 = c) :
    (l.foldl (Channel.deliver cfg c) x).last = p.2.2 % 2 ^ cfg.timeWidth := by
  obtain ⟨l', rfl⟩ := List.getLast?_eq_some_iff.1 hp
  rw [List.foldl_append, List.foldl_cons, List.foldl_nil, Channel.deliver, if_pos hc, receive_last]

/-- Settles O15: the bytes are taken in order, the channel holds what is left of them, and `LAST` is the last one's
time. -/
theorem excessBytesAreDiscarded : Obligations.ExcessBytesAreDiscarded := by
  intro s c bs rest hr hp hrx hlen hovf hin
  let ds : List Delivery := bs.map fun p => (c, p.1, p.2)
  have hds : ∀ p ∈ ds, p.1 = c := fun p hp => by
    obtain ⟨q, -, rfl⟩ := List.mem_map.1 hp
    rfl
  have hdsBytes : ds.map (fun p => p.2.1) = bs.map Prod.fst := by simp [ds]
  obtain ⟨t, hrun, hinput, ht⟩ := run_deliveries (bs := ds) (rest := rest) hr hp
    (by rw [hin, List.map_map]; rfl)
  have hch : t.ch c = ds.foldl (Channel.deliver s.cfg c) (s.ch c) := by rw [ht.ch c, if_pos hrx]
  have hholds : (t.ch c).Holds (s.cfg.capacity c) (bs.map Prod.fst) := by
    rw [hch, ← hdsBytes]
    exact (holds_nil hlen hovf).foldl_deliver hds
  rw [List.length_map] at hrun
  refine ⟨t, hrun, ht.refused, ht.evt, hinput, ?_, ?_, isFrame_iff.2 hholds.bytes.symm, fun p hlast => ?_, ?_⟩
  · rw [hholds.len, List.length_map]
  · rw [hholds.ovf, decide_eq_true_iff, List.length_map]
  · rw [hch, last_foldl_deliver (p := (c, p.1, p.2)) (by simp [ds, hlast]) rfl]
  · rw [ht.ch, foldl_deliver_of_ne fun p hp => (hds p hp).symm ▸ ne_other c]
    split <;> rfl

/-! ## The order of a cycle's lists -/

/-- One channel's bytes of a cycle, as deliveries. -/
def deliveriesOf (c : Chan) (t : Nat) (bs : List Byte) : List Delivery := bs.map fun b => (c, b, t)

@[simp] theorem length_deliveriesOf (c : Chan) (t : Nat) (bs : List Byte) :
    (deliveriesOf c t bs).length = bs.length := List.length_map _

theorem addAll_eq (c : Chan) (t : Nat) (bs : List Byte) :
    addAll c t bs = (deliveriesOf c t bs).map Delivery.stimulus := by
  rw [addAll, deliveriesOf, List.map_map]
  rfl

theorem mem_deliveriesOf {c : Chan} {t : Nat} {bs : List Byte} {p : Delivery} (h : p ∈ deliveriesOf c t bs) :
    p.1 = c ∧ p.2.2 = t := by
  obtain ⟨b, -, rfl⟩ := List.mem_map.1 h
  exact ⟨rfl, rfl⟩

theorem time_of_mem_deliveries {c c' : Chan} {t : Nat} {l l' : List Byte} :
    ∀ p ∈ deliveriesOf c t l ++ deliveriesOf c' t l', p.2.2 = t := fun p hp => by
  rcases List.mem_append.1 hp with hp | hp
  · exact (mem_deliveriesOf hp).2
  · exact (mem_deliveriesOf hp).2

/-- What one channel takes of two channels' lists is its own list, in either order. -/
theorem foldl_deliver_comm {cfg : Config} {c c' : Chan} (hne : c ≠ c') {x : Channel} (t : Nat) (l l' : List Byte)
    (e : Chan) :
    (deliveriesOf c t l ++ deliveriesOf c' t l').foldl (Channel.deliver cfg e) x =
      (deliveriesOf c' t l' ++ deliveriesOf c t l).foldl (Channel.deliver cfg e) x := by
  rw [List.foldl_append, List.foldl_append]
  by_cases he : c = e
  · subst he
    have hskip (y : Channel) := foldl_deliver_of_ne (cfg := cfg) (c := c) (x := y) (l := deliveriesOf c' t l')
      fun p hp => (mem_deliveriesOf hp).1 ▸ hne.symm
    rw [hskip, hskip]
  · have hskip (y : Channel) := foldl_deliver_of_ne (cfg := cfg) (c := e) (x := y) (l := deliveriesOf c t l)
      fun p hp => (mem_deliveriesOf hp).1 ▸ he
    rw [hskip, hskip]

/-- The time after deliveries that are all at one time. -/
theorem foldl_now {w t a : Nat} {l : List Delivery} (h : ∀ p ∈ l, p.2.2 = t) :
    l.foldl (fun _ p => p.2.2 % 2 ^ w) a = if l = [] then a else t % 2 ^ w := by
  induction l generalizing a with
  | nil => rfl
  | cons p l ih =>
    obtain ⟨hp, hl⟩ := List.forall_mem_cons.1 h
    rw [List.foldl_cons, ih hl, hp]
    split <;> rfl

/-- Settles O40: both orders end in the state the deliveries give, and each channel takes its own list in both. -/
theorem cycleListOrderDoesNotMatter : Obligations.CycleListOrderDoesNotMatter := by
  intro s t ms ds rest hr hp hin
  let md := deliveriesOf .m t ms ++ deliveriesOf .d t ds
  let dm := deliveriesOf .d t ds ++ deliveriesOf .m t ms
  have hnil : md = [] ↔ dm = [] := by simp [md, dm, and_comm]
  have htimesMD : ∀ p ∈ md, p.2.2 = t := time_of_mem_deliveries
  have htimesDM : ∀ p ∈ dm, p.2.2 = t := time_of_mem_deliveries
  obtain ⟨u, hrun, hinput, hu⟩ := run_deliveries (bs := md) (rest := rest) hr hp
    (by rw [hin, addAll_eq, addAll_eq, List.map_append])
  obtain ⟨v, hrun', hinput', hv⟩ := run_deliveries (bs := dm) (rest := rest)
    (s := { s with input := addAll .d t ds ++ addAll .m t ms ++ rest }) hr hp
    (by rw [addAll_eq, addAll_eq, List.map_append])
  have hsame : v = u := by
    refine state_ext (hv.cfg.trans hu.cfg.symm) (fun c => ?_) (hv.arb.trans hu.arb.symm) ?_
      (hv.refused.trans hu.refused.symm) (hv.evt.trans hu.evt.symm) ?_ (hinput'.trans hinput.symm)
    · rw [hv.ch c, hu.ch c, foldl_deliver_comm (by decide)]
      cases c <;> rfl
    · simp only [hv.phase, hu.phase, hnil]
    · rw [hv.now, hu.now, foldl_now htimesDM, foldl_now htimesMD]
      simp only [hnil]
  refine ⟨u, by simpa [md] using hrun, hinput, ?_⟩
  rw [← hsame]
  simpa [dm, Nat.add_comm] using hrun'

end Sys2Proof.Machine
end

section
/-! Observations (R42): how one is taken apart, and when two steps are observed alike. -/

namespace Sys2Proof.Machine

theorem observeFrom_succ {s s' : State} (h : step s = .next s') (outs : List Outputs) (k : Nat) :
    observeFrom outs (k + 1) s = observeFrom (s.observed s' outs) k s' := by
  rw [observeFrom, h]

theorem observeFrom_succ_of_stop {s : State} (h : ∀ s', step s ≠ .next s') (outs : List Outputs) (k : Nat) :
    observeFrom outs (k + 1) s = none := by
  rw [observeFrom]
  split
  · exact absurd ‹_› (h _)
  · rfl
  · rfl

theorem outputs_of_same {s t : State} (hcfg : s.cfg = t.cfg) (harb : s.arb = t.arb) : s.outputs = t.outputs := by
  simp only [State.outputs, State.rxen, State.receivable, State.activeOut, hcfg, harb]

theorem Effect.arb_of_same {i : Instr} {s s' u u' : State} (he : Effect i s s') (he' : Effect i u u')
    (hcfg : s.cfg = u.cfg) (harb : s.arb = u.arb) (hnow : s.now = u.now) : s'.arb = u'.arb := by
  have hslice (a : Arbiter) : s.sliceElapsed a = u.sliceElapsed a := by
    rw [State.sliceElapsed, State.sliceElapsed, hcfg, hnow]
  rw [he.arb_after, he'.arb_after, harb, hnow]
  simp only [hslice]
  cases i <;> rfl

end Sys2Proof.Machine
end

section
/-! Hidden state (R40 (b)): a simulation between states that differ only in it. -/

namespace Sys2Proof.Machine

/-! ## Channels -/

theorem Channel.Alike.symm {x y : Channel} (h : Channel.Alike x y) : Channel.Alike y x := by
  obtain ⟨hlen, hovf, hlast, hread⟩ := h
  exact ⟨hlen.symm, hovf.symm, fun hpos => (hlast (hlen ▸ hpos)).symm, fun i hi => (hread i (hlen ▸ hi)).symm⟩

/-- Nothing of an empty channel but its being empty is observable. -/
theorem alike_of_empty {x y : Channel} (hx : x.len = 0) (hy : y.len = 0) (hovf : x.ovf = y.ovf) :
    Channel.Alike x y :=
  ⟨hx.trans hy.symm, hovf, fun hpos => by omega, fun i hi => by omega⟩

theorem Channel.Alike.clear {x y : Channel} : Channel.Alike x.clear y.clear := alike_of_empty rfl rfl rfl

theorem Channel.Alike.bytes_eq {x y : Channel} (h : Channel.Alike x y) : x.bytes = y.bytes := by
  obtain ⟨hlen, -, -, hread⟩ := h
  rw [Channel.bytes, Channel.bytes, ← hlen]
  exact List.map_congr_left fun i hi => hread i (List.mem_range.1 hi)

/-- A received byte is written at the same index, and `LAST` to the same time. -/
theorem Channel.Alike.receive {x y : Channel} (h : Channel.Alike x y) (cap now : Nat) (b : Byte) :
    Channel.Alike (x.receive cap now b) (y.receive cap now b) := by
  obtain ⟨hlen, hovf, -, hread⟩ := h
  unfold Channel.receive
  rw [← hlen]
  split
  · refine ⟨rfl, hovf, fun _ => rfl, fun i hi => ?_⟩
    dsimp only at hi ⊢
    rw [read_write, read_write]
    split
    · rfl
    · exact hread i (by omega)
  · exact ⟨rfl, rfl, fun _ => rfl, hread⟩

/-! ## The block -/

theorem State.Alike.symm {s t : State} (h : State.Alike s t) : State.Alike t s := by
  obtain ⟨hcfg, harb, hphase, hrefused, hevt, hnow, hinput, hch⟩ := h
  exact ⟨hcfg.symm, harb.symm, hphase.symm, hrefused.symm, hevt.symm, hnow.symm, hinput.symm, fun c => (hch c).symm⟩

/-- The gap test of a channel reads `LAST` only where it is observable. -/
theorem State.Alike.due_eq {s t : State} (h : State.Alike s t) (c : Chan) : s.due c = t.due c := by
  obtain ⟨hcfg, -, -, -, -, hnow, -, hch⟩ := h
  obtain ⟨hlen, -, hlast, -⟩ := hch c
  rcases Nat.eq_zero_or_pos (s.ch c).len with hzero | hpos
  · simp [State.due, hzero, ← hlen]
  · rw [State.due, State.due, State.gapElapsed, State.gapElapsed, hcfg, hnow, hlast hpos, hlen]

theorem State.Alike.turnEvents_eq {s t : State} (h : State.Alike s t) (c : Chan) :
    turnEvents c (s.ch c).bytes s = turnEvents c (t.ch c).bytes t := by
  have hdue := h.due_eq c
  obtain ⟨hcfg, -, -, -, -, -, -, hch⟩ := h
  obtain ⟨hlen, hovf, -⟩ := hch c
  rw [turnEvents, turnEvents, hdue, flushEvents, flushEvents, (hch c).bytes_eq, hcfg, hlen, hovf]

theorem State.Alike.answers {s t : State} (h : State.Alike s t) {i : Instr} (ha : Instr.Answers i s) :
    Instr.Answers i t := by
  have hdue := h.due_eq
  obtain ⟨hcfg, harb, -, -, -, -, -, hch⟩ := h
  cases i with
  | tick =>
    intro c hd
    rw [← (hch c).1, ← hcfg]
    exact ha c ((hdue c).trans hd)
  | arb => exact (harb ▸ ha : t.arb ≠ none)
  | fsw => exact (harb ▸ ha : t.arb ≠ none)
  | _ => trivial

theorem Effect.ch_alike {i : Instr} {s s' t t' : State} (he : Effect i s s') (he' : Effect i t t')
    (h : State.Alike s t) (c : Chan) : Channel.Alike (s'.ch c) (t'.ch c) := by
  have hdue := h.due_eq c
  obtain ⟨hcfg, harb, -, -, -, hnow, -, hch⟩ := h
  cases i with
  | add c' b =>
    by_cases hc : c' = c
    · subst hc
      rw [he.add_ch, he'.add_ch, receivable_of_same hcfg harb, hcfg, hnow]
      split
      · exact (hch c').receive _ _ _
      · exact hch c'
    · rw [he.add_ch_ne (Ne.symm hc), he'.add_ch_ne (Ne.symm hc)]
      exact hch c
  | tick =>
    rw [he.ch c, he'.ch c]
    dsimp only
    rw [hdue]
    split
    · exact Channel.Alike.clear
    · exact hch c
  | discard =>
    rw [he.ch c, he'.ch c]
    exact Channel.Alike.clear
  | _ =>
    rw [he.ch c, he'.ch c]
    exact hch c

theorem Effect.alike {i : Instr} {s s' t t' : State} (he : Effect i s s') (he' : Effect i t t')
    (h : State.Alike s t) : State.Alike s' t' := by
  have hch := he.ch_alike he' h
  have hevents : tickEvents s = tickEvents t := by
    rw [tickEvents, tickEvents, h.turnEvents_eq .m, h.turnEvents_eq .d]
  obtain ⟨hcfg, harb, hphase, hrefused, hevt, hnow, hinput, -⟩ := h
  obtain ⟨hcfgS, hrefusedS, hnowS, hinputS⟩ := he.frame
  obtain ⟨hcfgT, hrefusedT, hnowT, hinputT⟩ := he'.frame
  refine ⟨?_, he.arb_of_same he' hcfg harb hnow, ?_, ?_, ?_, ?_, ?_, hch⟩
  · rw [hcfgS, hcfgT, hcfg]
  · rw [he.phase, he'.phase, hcfg]
  · rw [hrefusedS, hrefusedT, hrefused]
  · rw [he.evt_after, he'.evt_after, hevt, hevents]
  · rw [hnowS, hnowT, hnow]
  · rw [hinputS, hinputT, hinput]

/-! ## The simulation -/

/-- A refusal keeps the mark that stands, if one does (R32). -/
theorem refuse_refused (s : State) (r : Reason) (w : Word) :
    (s.refuse r w).refused = s.refused.or (some { reason := r, word := w, phase := s.phase }) := by
  cases hr : s.refused with
  | none => exact refuse_refused_none s r w hr
  | some m => rw [refuse_of_some s r w hr, hr, Option.some_or]

theorem State.Alike.refuse {s t : State} (h : State.Alike s t) (r : Reason) (w : Word) :
    State.Alike (s.refuse r w) (t.refuse r w) := by
  obtain ⟨hcfg, harb, hphase, hrefused, hevt, hnow, hinput, hch⟩ := h
  refine ⟨?_, ?_, ?_, ?_, ?_, ?_, ?_, ?_⟩
  case refine_4 => rw [refuse_refused, refuse_refused, hrefused, hphase]
  all_goals simpa

theorem exec_alike {i : Instr} {s s' t : State} (h : State.Alike s t) (hs : exec i s = .next s') :
    ∃ t', exec i t = .next t' ∧ State.Alike s' t' := by
  have ⟨hcfg, _, hphase, hrefused, _⟩ := h
  rw [exec_eq_perform] at hs
  rcases perform_cases i s (effectOf i) with ⟨m, hr, hperform⟩ | ⟨r, hr, hc, hperform⟩ | ⟨hr, hc, hperform⟩
  · obtain rfl := Host.Outcome.next.inj (hperform.symm.trans hs)
    exact ⟨t, exec_of_refused (hrefused ▸ hr), h⟩
  · obtain rfl := Host.Outcome.next.inj (hperform.symm.trans hs)
    refine ⟨t.refuse r (encode i), ?_, h.refuse r _⟩
    rw [exec_eq_perform, perform, ← hrefused, hr, ← check_of_same hcfg hphase, hc]
  · have he := effect_of_exec hr hc (by rw [exec_eq_perform, hs])
    obtain ⟨t', ht, he'⟩ := exec_answers (hrefused ▸ hr) (check_of_same hcfg hphase ▸ hc) (h.answers he.answers)
    exact ⟨t', ht, he.alike he' h⟩

theorem present_alike {w : Word} {s s' t : State} (h : State.Alike s t) (hs : present w s = .next s') :
    ∃ t', present w t = .next t' ∧ State.Alike s' t' := by
  unfold present at hs ⊢
  cases hd : decode w with
  | reserved =>
    rw [hd] at hs
    obtain rfl := Host.Outcome.next.inj hs
    exact ⟨_, rfl, h.refuse _ w⟩
  | op i =>
    rw [hd] at hs
    exact exec_alike h hs

/-- Resets at one time leave alike states of alike ones, whatever bytes they leave in the buffers. -/
theorem State.Alike.restart {s t : State} (h : State.Alike s t) (n : Nat) (b b' : Contents) {l l' : List Stimulus}
    (hl : l.map Stimulus.withoutContents = l'.map Stimulus.withoutContents) :
    State.Alike (s.restart n b l) (t.restart n b' l') := by
  obtain ⟨hcfg, -⟩ := h
  refine ⟨hcfg, ?_, rfl, rfl, rfl, ?_, hl, fun c => ?_⟩
  · rw [restart_arb, restart_arb, hcfg]
  · rw [restart_now, restart_now, hcfg]
  · rw [restart_ch, restart_ch]
    exact alike_of_empty rfl rfl rfl

theorem State.Alike.sample {s t : State} (h : State.Alike s t) (n : Nat) {l l' : List Stimulus}
    (hl : l.map Stimulus.withoutContents = l'.map Stimulus.withoutContents) :
    State.Alike (s.sample n l) (t.sample n l') := by
  obtain ⟨hcfg, harb, hphase, hrefused, hevt, -, -, hch⟩ := h
  refine ⟨hcfg, harb, hphase, hrefused, hevt, ?_, hl, fun c => ?_⟩
  · rw [sample_now, sample_now, hcfg]
  · rw [sample_ch, sample_ch]
    exact hch c

/-- Stimuli that are equal without their contents are equal, or resets at one time. -/
theorem withoutContents_eq {x y : Stimulus} (h : y.withoutContents = x.withoutContents) :
    (x = .idle ∧ y = .idle) ∨ (∃ w n, x = .op w n ∧ y = .op w n) ∨
      ∃ n b b', x = .reset n b ∧ y = .reset n b' := by
  cases x <;> cases y <;> simp_all [Stimulus.withoutContents]

theorem step_alike {s s' t : State} (h : State.Alike s t) (hs : step s = .next s') :
    ∃ t', step t = .next t' ∧ State.Alike s' t' ∧ ∀ outs, s.observed s' outs = t.observed t' outs := by
  have ⟨hcfg, harb, hphase, hrefused, hevt, hnow, hinput, hch⟩ := h
  cases hin : s.input with
  | nil =>
    rw [step_nil hin] at hs
    obtain rfl := Host.Outcome.next.inj hs
    have hin' : t.input = [] := by simpa [hin] using hinput.symm
    exact ⟨t, step_nil hin', h, fun outs => by rw [State.observed, State.observed, hin, hin']⟩
  | cons x rest =>
    rw [hin, List.map_cons] at hinput
    obtain ⟨y, rest', hin', hxy, hrest⟩ := List.map_eq_cons_iff.1 hinput.symm
    rcases withoutContents_eq hxy with ⟨rfl, rfl⟩ | ⟨w, n, rfl, rfl⟩ | ⟨n, b, b', rfl, rfl⟩
    · rw [step_idle hin] at hs
      obtain rfl := Host.Outcome.next.inj hs
      exact ⟨_, step_idle hin', ⟨hcfg, harb, hphase, hrefused, hevt, hnow, hrest.symm, hch⟩,
        fun outs => by rw [State.observed, State.observed, hin, hin']⟩
    · rw [step_op hin] at hs
      obtain ⟨t', ht, halike⟩ := present_alike (h.sample n hrest.symm) hs
      refine ⟨t', (step_op hin').trans ht, halike, fun outs => ?_⟩
      obtain ⟨hcfg', harb', -⟩ := halike
      rw [State.observed, State.observed, hin, hin', outputs_of_same hcfg' harb']
    · rw [step_reset hin] at hs
      obtain rfl := Host.Outcome.next.inj hs
      exact ⟨_, step_reset hin', h.restart n b b' hrest.symm,
        fun outs => by rw [State.observed, State.observed, hin, hin']⟩

theorem observeFrom_alike (k : Nat) :
    ∀ (outs : List Outputs) {s t : State}, State.Alike s t → observeFrom outs k s = observeFrom outs k t := by
  induction k with
  | zero =>
    rintro outs s t ⟨-, -, -, hrefused, hevt, -⟩
    rw [observeFrom, observeFrom, hrefused, hevt]
  | succ k ih =>
    intro outs s t h
    by_cases hnext : ∃ s', step s = .next s'
    · obtain ⟨s', hs⟩ := hnext
      obtain ⟨t', ht, halike, hobs⟩ := step_alike h hs
      rw [observeFrom_succ hs, observeFrom_succ ht, hobs, ih _ halike]
    · rw [observeFrom_succ_of_stop fun s' hs => hnext ⟨s', hs⟩, observeFrom_succ_of_stop fun t' ht => ?_]
      obtain ⟨s', hs, -⟩ := step_alike h.symm ht
      exact hnext ⟨s', hs⟩

/-- Settles O41: the simulation goes on for every number of steps, and both ways, so the stops agree too. -/
theorem hiddenStateIsNeverObserved : Obligations.HiddenStateIsNeverObserved := fun k _ _ => observeFrom_alike k []

/-- Settles O26: the DISCARD empties both channels of either state, and what is left to tell the two apart is hidden. -/
theorem discardedBytesAreNeverObserved : Obligations.DiscardedBytesAreNeverObserved := by
  intro s n rest x y hr hp hin k
  let t : State := { s with chM := x, chD := y }
  cases k with
  | zero => rfl
  | succ k =>
    have hs := (step_ofInstr (i := .discard) hin).trans
      (execDiscard_legal (s := s.sample n rest) hr (check_discard.2 hp))
    have ht := (step_ofInstr (s := t) (i := .discard) hin).trans
      (execDiscard_legal (s := t.sample n rest) hr (check_discard.2 hp))
    rw [observe, observe, observeFrom_succ hs, observeFrom_succ ht]
    have hobs (s' : State) : t.observed s' [] = s.observed s' [] := rfl
    have hout {s' t' : State} (h : s'.outputs = t'.outputs) : s.observed s' [] = s.observed t' [] := by
      rw [State.observed, State.observed, h]
    rw [hobs, hout (outputs_of_same rfl rfl)]
    refine observeFrom_alike k _ ⟨rfl, rfl, rfl, rfl, rfl, rfl, rfl, fun c => ?_⟩
    cases c <;> exact alike_of_empty rfl rfl rfl

end Sys2Proof.Machine
end

section
/-! Idle steps (R36 (a), R42): a step takes no more of the host's stream than its own stimulus. -/

namespace Sys2Proof.Machine

/-- An operation does what it does whatever the host presents after it. -/
theorem exec_skip {i : Instr} {s s' : State} (h : exec i s = .next s') (l : List Stimulus) :
    exec i (s.skip l) = .next (s'.skip l) := by
  have hcheck : (s.skip l).check i = s.check i := rfl
  cases hr : s.refused with
  | some m =>
    obtain rfl := Host.Outcome.next.inj ((exec_of_refused hr).symm.trans h)
    exact exec_of_refused hr
  | none =>
    cases hc : s.check i with
    | some r =>
      obtain rfl := Host.Outcome.next.inj ((exec_of_check hr hc).symm.trans h)
      exact exec_of_check hr (hcheck.trans hc)
    | none =>
      have he := effect_of_exec hr hc h
      have ha : Instr.Answers i (s.skip l) := by
        have ha := he.answers
        cases i with
        | tick => exact fun c hd => by simpa using ha c ((due_of_same rfl rfl (skip_ch s l c)).symm.trans hd)
        | _ => exact ha
      obtain ⟨t, ht, he'⟩ := exec_answers (s := s.skip l) hr (hcheck.trans hc) ha
      have hturn (c : Chan) : turnEvents c ((s.skip l).ch c).bytes (s.skip l) = turnEvents c (s.ch c).bytes s := by
        rw [skip_ch]
        exact turnEvents_of_same _ rfl rfl (skip_ch s l c)
      have hevents : tickEvents (s.skip l) = tickEvents s := by rw [tickEvents, tickEvents, hturn, hturn]
      obtain ⟨hcfg, hrefused, hnow, -⟩ := he.frame
      obtain ⟨hcfg', hrefused', hnow', hinput'⟩ := he'.frame
      have harb : t.arb = s'.arb := he'.arb_of_same he rfl rfl rfl
      rw [ht]
      refine congrArg _ (state_ext (hcfg'.trans hcfg.symm) (fun c => ?_) harb
        (he'.phase.trans he.phase.symm) (hrefused'.trans hrefused.symm) ?_ (hnow'.trans hnow.symm) hinput')
      · rw [he'.ch_of_same he rfl rfl rfl (skip_ch s l c), skip_ch]
      · rw [he'.evt_after, hevents, skip_evt, skip_evt, he.evt_after]

theorem present_skip {w : Word} {s s' : State} (h : present w s = .next s') (l : List Stimulus) :
    present w (s.skip l) = .next (s'.skip l) := by
  unfold present at h ⊢
  cases hd : decode w with
  | reserved =>
    rw [hd] at h
    obtain rfl := Host.Outcome.next.inj h
    dsimp only [State.refuse, State.skip]
    split <;> rfl
  | op i =>
    rw [hd] at h
    exact exec_skip h l

/-- A step's outcome for a stimulus, given before the rest of the stream is known. -/
theorem step_skip_cons (s : State) (x : Stimulus) :
    (∃ u : State, ∀ l, step (s.skip (x :: l)) = .next (u.skip l)) ∨
      ∀ l s', step (s.skip (x :: l)) ≠ .next s' := by
  cases x with
  | idle => exact .inl ⟨s, fun l => rfl⟩
  | reset n b => exact .inl ⟨s.restart n b [], fun l => rfl⟩
  | op w n =>
    have hstep (l : List Stimulus) : step (s.skip (.op w n :: l)) = present w ((s.sample n []).skip l) := rfl
    by_cases hnext : ∃ u, present w (s.sample n []) = .next u
    · obtain ⟨u, hu⟩ := hnext
      exact .inl ⟨u, fun l => (hstep l).trans (present_skip hu l)⟩
    · refine .inr fun l s' hs => hnext ⟨s'.skip [], ?_⟩
      exact present_skip ((hstep l).symm.trans hs) []

theorem observeFrom_filter_idle (ops : List Stimulus) : ∀ (s : State) (outs : List Outputs),
    observeFrom outs ops.length (s.skip ops) =
      observeFrom outs (ops.filter (· ≠ .idle)).length (s.skip (ops.filter (· ≠ .idle))) := by
  induction ops with
  | nil => exact fun _ _ => rfl
  | cons x ops ih =>
    intro s outs
    by_cases hx : x = .idle
    · subst hx
      rw [List.filter_cons_of_neg (by simp), ← ih s outs, List.length_cons,
        observeFrom_succ (s := s.skip (.idle :: ops)) (s' := s.skip ops) rfl]
      rfl
    · rw [List.filter_cons_of_pos (by simpa using hx), List.length_cons, List.length_cons]
      rcases step_skip_cons s x with ⟨u, hu⟩ | hstop
      · rw [observeFrom_succ (hu _), observeFrom_succ (hu _), ← ih u]
        cases x <;> rfl
      · rw [observeFrom_succ_of_stop (hstop _), observeFrom_succ_of_stop (hstop _)]

/-- Settles O46, by induction on the stream. -/
theorem idleStepsAreNeverObserved : Obligations.IdleStepsAreNeverObserved := fun s ops =>
  observeFrom_filter_idle ops s []

end Sys2Proof.Machine
end

section
/-! Arbitration (R113): a simulation between states that agree on all the arbiter may depend on. -/

namespace Sys2Proof.Machine

/-- An operation with the byte of an ADD taken out. -/
def withoutByte : Instr → Instr
  | .add c _ => .add c 0#8
  | i => i

/-- A decoded word with the byte of an ADD taken out. -/
def Decoded.withoutByte : Decoded → Decoded
  | .op i => .op (Machine.withoutByte i)
  | .reserved => .reserved

/-- Taking the byte out of a presented word takes it out of what the word decodes to. -/
theorem withoutByte_op (w : Word) (n : Nat) :
    ∃ v, (Stimulus.op w n).withoutByte = .op v n ∧ decode v = Decoded.withoutByte (decode w) := by
  cases hd : decode w with
  | reserved => exact ⟨w, by simp [Stimulus.withoutByte, hd], hd⟩
  | op i =>
    cases i with
    | add c b => exact ⟨encode (.add c 0#8), by simp [Stimulus.withoutByte, hd], decode_encode _⟩
    | _ => exact ⟨w, by simp [Stimulus.withoutByte, hd], hd⟩

section
variable {s s' t t' : State} {i j : Instr}

/-- Operations that are equal without their bytes are equal, or ADDs on one channel. -/
theorem withoutByte_cases (h : withoutByte i = withoutByte j) :
    i = j ∨ ∃ c b b', i = .add c b ∧ j = .add c b' := by
  cases i with
  | add c b =>
    cases j with
    | add c' b' =>
      obtain ⟨rfl, -⟩ := Instr.add.inj h
      exact .inr ⟨c, b, b', rfl, rfl⟩
    | _ => cases h
  | _ =>
    cases j with
    | add c' b' => cases h
    | _ => exact .inl h

theorem check_of_withoutByte (h : withoutByte i = withoutByte j) : s.check i = s.check j := by
  rcases withoutByte_cases h with rfl | ⟨c, b, b', rfl, rfl⟩ <;> rfl

/-- The arbiter and the phase after an operation do not depend on the byte of an ADD, nor on the channels. -/
theorem Effect.sameArbitration (he : Effect i s s') (he' : Effect j t t') (hij : withoutByte i = withoutByte j)
    (h : State.SameArbitration s t) : State.SameArbitration s' t' := by
  obtain ⟨hcfg, harb, -, hrefused, hnow, hinput⟩ := h
  obtain ⟨hcfgS, hrefusedS, hnowS, hinputS⟩ := he.frame
  obtain ⟨hcfgT, hrefusedT, hnowT, hinputT⟩ := he'.frame
  have harb' : s'.arb = t'.arb := by
    rcases withoutByte_cases hij with rfl | ⟨c, b, b', rfl, rfl⟩
    · exact he.arb_of_same he' hcfg harb hnow
    · rw [he.arb_after, he'.arb_after, harb]
  have hafter : phaseAfter t.cfg.rxModel i = phaseAfter t.cfg.rxModel j := by
    rcases withoutByte_cases hij with rfl | ⟨c, b, b', rfl, rfl⟩ <;> rfl
  refine ⟨?_, harb', by rw [he.phase, he'.phase, hcfg, hafter], ?_, ?_, ?_⟩
  · rw [hcfgS, hcfgT, hcfg]
  · rw [hrefusedS, hrefusedT, hrefused]
  · rw [hnowS, hnowT, hnow]
  · rw [hinputS, hinputT, hinput]

theorem refuse_isSome (s : State) (r : Reason) (w : Word) : (s.refuse r w).refused.isSome = true :=
  Option.isSome_iff_ne_none.2 (refuse_refused_ne s r w)

theorem State.SameArbitration.refuse (h : State.SameArbitration s t) (r r' : Reason) (w w' : Word) :
    State.SameArbitration (s.refuse r w) (t.refuse r' w') := by
  obtain ⟨hcfg, harb, hphase, -, hnow, hinput⟩ := h
  refine ⟨?_, ?_, ?_, (refuse_isSome _ _ _).trans (refuse_isSome _ _ _).symm, ?_, ?_⟩ <;> simpa

theorem exec_sameArbitration (hij : withoutByte i = withoutByte j) (h : State.SameArbitration s t)
    (hs : exec i s = .next s') (ht : exec j t = .next t') : State.SameArbitration s' t' := by
  have ⟨hcfg, _, hphase, hrefused, _⟩ := h
  have hcheck : t.check j = s.check i := (check_of_same hcfg.symm hphase.symm).trans (check_of_withoutByte hij).symm
  rw [exec_eq_perform] at hs ht
  rcases perform_cases i s (effectOf i) with ⟨m, hr, hperform⟩ | ⟨r, hr, hc, hperform⟩ | ⟨hr, hc, hperform⟩
  · obtain ⟨m', hr'⟩ : ∃ m', t.refused = some m' := Option.isSome_iff_exists.1 (by rw [← hrefused, hr]; rfl)
    rw [perform_of_refused hr] at hs
    rw [perform_of_refused hr'] at ht
    cases hs
    cases ht
    exact h
  all_goals have hr' : t.refused = none := by simpa [hr] using hrefused.symm
  · rw [hperform] at hs
    rw [perform, hr', hcheck, hc] at ht
    cases hs
    cases ht
    exact h.refuse _ _ _ _
  · have he := effect_of_exec hr hc (by rw [exec_eq_perform, hs])
    have he' := effect_of_exec hr' (hcheck.trans hc) (by rw [exec_eq_perform, ht])
    exact he.sameArbitration he' hij h

theorem present_sameArbitration {w v : Word} (hwv : Decoded.withoutByte (decode w) = Decoded.withoutByte (decode v))
    (h : State.SameArbitration s t) (hs : present w s = .next s') (ht : present v t = .next t') :
    State.SameArbitration s' t' := by
  unfold present at hs ht
  cases hw : decode w with
  | reserved =>
    cases hv : decode v with
    | reserved =>
      rw [hw] at hs
      rw [hv] at ht
      cases hs
      cases ht
      exact h.refuse _ _ _ _
    | op j => simp [hw, hv, Decoded.withoutByte] at hwv
  | op i =>
    cases hv : decode v with
    | reserved => simp [hw, hv, Decoded.withoutByte] at hwv
    | op j =>
      rw [hw] at hs
      rw [hv] at ht
      exact exec_sameArbitration (by simpa [hw, hv, Decoded.withoutByte] using hwv) h hs ht

/-- Stimuli that are equal without their bytes: ADDs on one channel at one time, or one stimulus, or resets at one
time. -/
theorem withoutByte_eq {x y : Stimulus} (h : y.withoutByte = x.withoutByte) :
    (x = .idle ∧ y = .idle) ∨
      (∃ w v n, x = .op w n ∧ y = .op v n ∧ Decoded.withoutByte (decode w) = Decoded.withoutByte (decode v)) ∨
      ∃ n b b', x = .reset n b ∧ y = .reset n b' := by
  cases x with
  | op w n =>
    obtain ⟨w', hw, hdw⟩ := withoutByte_op w n
    cases y with
    | op v m =>
      obtain ⟨v', hv, hdv⟩ := withoutByte_op v m
      rw [hw, hv] at h
      obtain ⟨rfl, rfl⟩ := Stimulus.op.inj h
      exact .inr (.inl ⟨w, v, m, rfl, rfl, hdw.symm.trans hdv⟩)
    | _ =>
      rw [hw] at h
      cases h
  | _ =>
    cases y with
    | op v m =>
      obtain ⟨v', hv, -⟩ := withoutByte_op v m
      rw [hv] at h
      cases h
    | _ => simp_all [Stimulus.withoutByte]

theorem State.SameArbitration.sample (h : State.SameArbitration s t) (n : Nat) {l l' : List Stimulus}
    (hl : l.map Stimulus.withoutByte = l'.map Stimulus.withoutByte) :
    State.SameArbitration (s.sample n l) (t.sample n l') := by
  obtain ⟨hcfg, harb, hphase, hrefused, -⟩ := h
  exact ⟨hcfg, harb, hphase, hrefused, by rw [sample_now, sample_now, hcfg], hl⟩

theorem State.SameArbitration.restart (h : State.SameArbitration s t) (n : Nat) (b b' : Contents)
    {l l' : List Stimulus} (hl : l.map Stimulus.withoutByte = l'.map Stimulus.withoutByte) :
    State.SameArbitration (s.restart n b l) (t.restart n b' l') := by
  obtain ⟨hcfg, -⟩ := h
  exact ⟨hcfg, by rw [restart_arb, restart_arb, hcfg], rfl, rfl, by rw [restart_now, restart_now, hcfg], hl⟩

theorem step_sameArbitration (h : State.SameArbitration s t) (hs : step s = .next s') (ht : step t = .next t') :
    State.SameArbitration s' t' := by
  have ⟨hcfg, harb, hphase, hrefused, hnow, hinput⟩ := h
  cases hin : s.input with
  | nil =>
    have hin' : t.input = [] := by simpa [hin] using hinput.symm
    rw [step_nil hin] at hs
    rw [step_nil hin'] at ht
    cases hs
    cases ht
    exact h
  | cons x rest =>
    rw [hin, List.map_cons] at hinput
    obtain ⟨y, rest', hin', hxy, hrest⟩ := List.map_eq_cons_iff.1 hinput.symm
    rcases withoutByte_eq hxy with ⟨rfl, rfl⟩ | ⟨w, v, n, rfl, rfl, hwv⟩ | ⟨n, b, b', rfl, rfl⟩
    · rw [step_idle hin] at hs
      rw [step_idle hin'] at ht
      cases hs
      cases ht
      exact ⟨hcfg, harb, hphase, hrefused, hnow, hrest.symm⟩
    · rw [step_op hin] at hs
      rw [step_op hin'] at ht
      exact present_sameArbitration hwv (h.sample n hrest.symm) hs ht
    · rw [step_reset hin] at hs
      rw [step_reset hin'] at ht
      cases hs
      cases ht
      exact h.restart n b b' hrest.symm

end

/-- Settles O42: inside the invariant no step stops, and the arbiter's inputs stay the same on both sides. -/
theorem arbitrationIgnoresTheTraffic : Obligations.ArbitrationIgnoresTheTraffic := by
  intro k
  induction k with
  | zero =>
    rintro s t - - ⟨hcfg, harb, -⟩
    exact ⟨s, t, rfl, rfl, harb, outputs_of_same hcfg harb⟩
  | succ k ih =>
    intro s t hs ht h
    obtain ⟨s', hstep⟩ := step_next hs
    obtain ⟨t', hstep'⟩ := step_next ht
    rw [run_succ_of_step hstep, run_succ_of_step hstep']
    exact ih s' t' (step_inv hs hstep) (step_inv ht hstep') (step_sameArbitration h hstep hstep')

end Sys2Proof.Machine
end

section
/-! A host that keeps the order of a cycle (R60, R170): lists of operations that the phase table lets through run to
their end. -/

namespace Sys2Proof.Machine

/-- An operation with its time, as the host presents it. -/
def presented (p : Instr × Nat) : Stimulus := .ofInstr p.1 p.2

/-- The operations are all of the interface, and R31's table takes them one after another from a phase to a phase. -/
def Walks (rx : RxModel) : List (Instr × Nat) → Phase → Phase → Prop
  | [], p, q => p = q
  | x :: l, p, q => x.1.inInterface rx = true ∧ Instr.legalIn x.1 p = true ∧ Walks rx l (phaseAfter rx x.1) q

theorem Walks.append {rx : RxModel} {l l' : List (Instr × Nat)} {p q r : Phase} (h : Walks rx l p q)
    (h' : Walks rx l' q r) : Walks rx (l ++ l') p r := by
  induction l generalizing p with
  | nil =>
    obtain rfl : p = q := h
    exact h'
  | cons x l ih =>
    obtain ⟨hi, hlegal, hrest⟩ := h
    exact ⟨hi, hlegal, ih hrest⟩

/-- The block with the parameters `cfg` stands inside the invariant in phase `p` with nothing refused, and the host is
about to present `ops`. -/
structure Ready (cfg : Config) (p : Phase) (ops : List Stimulus) (s : State) : Prop where
  inv : s.Inv
  cfg : s.cfg = cfg
  refused : s.refused = none
  phase : s.phase = p
  input : s.input = ops

section
variable {cfg : Config} {p q : Phase} {rest : List Stimulus} {s : State}

/-- A legal operation of the interface is performed. -/
theorem step_ready {i : Instr} {n : Nat} (h : Ready cfg p (.ofInstr i n :: rest) s)
    (hi : i.inInterface cfg.rxModel = true) (hlegal : Instr.legalIn i p = true) :
    ∃ t, step s = .next t ∧ Effect i (s.sample n rest) t ∧ Ready cfg (phaseAfter cfg.rxModel i) rest t := by
  have hinv := h.inv.sample n rest
  have hcheck : (s.sample n rest).check i = none := check_eq_none.2 ⟨by simpa [h.cfg], by simpa [h.phase]⟩
  obtain ⟨t, ht, he⟩ := exec_answers (s := s.sample n rest) h.refused hcheck (hinv.answers hcheck)
  obtain ⟨hcfg, hrefused, -, hinput⟩ := he.frame
  refine ⟨t, (step_ofInstr h.input).trans ht, he, he.inv hinv, hcfg.trans h.cfg, hrefused.trans h.refused, ?_,
    hinput⟩
  rw [he.phase, sample_cfg, h.cfg]

theorem run_walk {l : List (Instr × Nat)} (h : Ready cfg p (l.map presented ++ rest) s)
    (hwalk : Walks cfg.rxModel l p q) : ∃ t, run l.length s = .next t ∧ Ready cfg q rest t := by
  induction l generalizing p s with
  | nil =>
    obtain rfl : p = q := hwalk
    exact ⟨s, rfl, h⟩
  | cons x l ih =>
    obtain ⟨hi, hlegal, hwalk⟩ := hwalk
    obtain ⟨u, hstep, -, hu⟩ := step_ready (i := x.1) (n := x.2) h hi hlegal
    obtain ⟨t, hrun, ht⟩ := ih hu hwalk
    exact ⟨t, (run_succ_of_step hstep _).trans hrun, ht⟩

end

/-! ## Cycles -/

/-- The operations of a cycle, in the order of R170. -/
def HostCycle.ops (rx : RxModel) (k : HostCycle) : List (Instr × Nat) :=
  (k.commands.map fun p => (p.1.instr, p.2)) ++ (k.bytes.map fun p => (.add p.1 p.2.1, p.2.2)) ++
    (.tick, k.tickAt) ::
      match rx with
      | .shared => [(.arb, k.arbAt)]
      | .dedicated => []

theorem HostCycle.stream_eq (rx : RxModel) (k : HostCycle) : k.stream rx = (k.ops rx).map presented := by
  cases rx <;> simp [HostCycle.stream, HostCycle.ops, presented, Function.comp_def]

theorem walks_commands {rx : RxModel} {l : List (Command × Nat)} (h : rx = .dedicated → ∀ p ∈ l, p.1 ≠ .fsw) :
    Walks rx (l.map fun p => (p.1.instr, p.2)) .ctrl .ctrl := by
  induction l with
  | nil => rfl
  | cons p l ih =>
    have hrest := ih fun hrx q hq => h hrx q (List.mem_cons_of_mem _ hq)
    obtain ⟨command, n⟩ := p
    cases command with
    | discard => exact ⟨rfl, rfl, hrest⟩
    | fsw =>
      refine ⟨inInterface_eq_true.2 fun hrx => ?_, rfl, hrest⟩
      exact absurd rfl (h hrx (.fsw, n) (List.mem_cons_self ..))

theorem walks_bytes {rx : RxModel} (l : List Delivery) {p : Phase} (hp : p = .ctrl ∨ p = .poll) :
    ∃ q, (q = .ctrl ∨ q = .poll) ∧ Walks rx (l.map fun p => (.add p.1 p.2.1, p.2.2)) p q := by
  induction l generalizing p with
  | nil => exact ⟨p, hp, rfl⟩
  | cons x l ih =>
    obtain ⟨q, hq, hwalk⟩ := ih (p := .poll) (.inr rfl)
    exact ⟨q, hq, rfl, by simpa [Instr.legalIn] using hp, hwalk⟩

theorem walks_tick {rx : RxModel} {n : Nat} {p : Phase} (hp : p = .ctrl ∨ p = .poll) :
    Walks rx [(.tick, n)] p (phaseAfterTick rx) :=
  ⟨rfl, by simpa [Instr.legalIn] using hp, rfl⟩

/-- A cycle in the order of R170 leads from phase CTRL back to phase CTRL. -/
theorem HostCycle.walks {rx : RxModel} {k : HostCycle} (h : rx = .dedicated → ∀ p ∈ k.commands, p.1 ≠ .fsw) :
    Walks rx (k.ops rx) .ctrl .ctrl := by
  obtain ⟨q, hq, hbytes⟩ := walks_bytes (rx := rx) k.bytes (.inl rfl)
  refine ((walks_commands h).append hbytes).append ?_
  have htick := walks_tick (rx := rx) (n := k.tickAt) hq
  cases rx with
  | dedicated => exact htick
  | shared => exact htick.append (l' := [(.arb, k.arbAt)]) ⟨rfl, rfl, rfl⟩

theorem walks_flatMap {rx : RxModel} {ks : List HostCycle} (h : ∀ k ∈ ks, Walks rx (k.ops rx) .ctrl .ctrl) :
    Walks rx (ks.flatMap (HostCycle.ops rx)) .ctrl .ctrl := by
  induction ks with
  | nil => rfl
  | cons k ks ih =>
    obtain ⟨hk, hks⟩ := List.forall_mem_cons.1 h
    rw [List.flatMap_cons]
    exact hk.append (ih hks)

/-- Settles O43: each cycle walks from CTRL to CTRL, and the block follows a walk. -/
theorem orderedHostIsNeverRefused : Obligations.OrderedHostIsNeverRefused := by
  intro s ks rest hinv hr hp hfsw hin
  have hstream : ks.flatMap (HostCycle.stream s.cfg.rxModel) =
      (ks.flatMap (HostCycle.ops s.cfg.rxModel)).map presented := by
    rw [List.map_flatMap]
    exact List.flatMap_congr fun k _ => HostCycle.stream_eq _ k
  have hwalk := walks_flatMap fun k hk => HostCycle.walks fun hrx => hfsw hrx k hk
  obtain ⟨t, hrun, ht⟩ := run_walk ⟨hinv, rfl, hr, hp, hstream ▸ hin⟩ hwalk
  refine ⟨t, ?_, ht.refused, ht.phase, ht.input⟩
  rw [hstream, List.length_map]
  exact hrun

end Sys2Proof.Machine
end

section
/-! Switches (R114): how many a run has, and one at every slice of a host that runs a cycle at every millisecond. -/

namespace Sys2Proof.Machine

theorem switches_succ {s t : State} (h : step s = .next t) (k : Nat) :
    switches (k + 1) s =
      (if t.arb.map Arbiter.active = s.arb.map Arbiter.active then 0 else 1) + switches k t := by
  rw [switches, h]

theorem switches_add {j : Nat} {s u : State} (h : run j s = .next u) (k : Nat) :
    switches (j + k) s = switches j s + switches k u := by
  induction j generalizing s with
  | zero =>
    obtain rfl := Host.Outcome.next.inj h
    rw [Nat.zero_add, switches, Nat.zero_add]
  | succ j ih =>
    obtain ⟨v, hstep, hrun⟩ := run_succ_eq_next h
    rw [Nat.succ_add, switches_succ hstep, switches_succ hstep, ih hrun, Nat.add_assoc]

/-- An operation other than ARB and FSW leaves the arbiter registers, performed or not. -/
theorem step_ofInstr_arb {s t : State} {i : Instr} {n : Nat} {rest : List Stimulus}
    (hin : s.input = .ofInstr i n :: rest) (harb : i ≠ .arb) (hfsw : i ≠ .fsw) (h : step s = .next t) :
    t.arb = s.arb := by
  have hperforms {j : Instr} {s' : State} (hj : s.performs = some (j, s')) : i = j := by
    obtain ⟨w, m, l, hin', hd, -⟩ := performs_eq_some.1 hj
    rw [hin] at hin'
    cases hin'
    exact Decoded.op.inj ((decode_encode i).symm.trans hd)
  exact step_arb h (by rw [State.resetNext, hin]; rfl)
    fun s' => ⟨fun hj => harb (hperforms hj), fun hj => hfsw (hperforms hj)⟩

theorem run_arb {l : List (Instr × Nat)} (hl : ∀ x ∈ l, x.1 ≠ .arb ∧ x.1 ≠ .fsw) {rest : List Stimulus}
    {s t : State} (hin : s.input = l.map presented ++ rest) (h : run l.length s = .next t) :
    t.arb = s.arb ∧ switches l.length s = 0 := by
  induction l generalizing s with
  | nil =>
    obtain rfl := Host.Outcome.next.inj h
    exact ⟨rfl, rfl⟩
  | cons x l ih =>
    obtain ⟨⟨harb, hfsw⟩, hl⟩ := List.forall_mem_cons.1 hl
    obtain ⟨u, hstep, hrun⟩ := run_succ_eq_next h
    have hu : u.arb = s.arb := step_ofInstr_arb (i := x.1) hin harb hfsw hstep
    obtain ⟨ht, hswitches⟩ := ih hl (by rw [step_input hstep, hin]; rfl) hrun
    exact ⟨ht.trans hu, by rw [List.length_cons, switches_succ hstep, hswitches, hu, if_pos rfl]⟩

/-- A cycle under `Shared` up to its ARB. -/
def cycleBody (t : Nat) (ms ds : List Byte) : List (Instr × Nat) :=
  (deliveriesOf .m t ms ++ deliveriesOf .d t ds).map (fun p => (.add p.1 p.2.1, p.2.2)) ++ [(.tick, t)]

theorem cycle_eq (t : Nat) (ms ds : List Byte) :
    cycle .shared t ms ds = (cycleBody t ms ds).map presented ++ [.ofInstr .arb t] := by
  rw [cycle, addAll_eq, addAll_eq, cycleBody, List.map_append, List.map_map, ← List.map_append, List.append_assoc]
  rfl

theorem cycleBody_ne_arb {t : Nat} {ms ds : List Byte} :
    ∀ x ∈ cycleBody t ms ds, x.1 ≠ .arb ∧ x.1 ≠ .fsw := by
  intro x hx
  rcases List.mem_append.1 hx with hx | hx
  · obtain ⟨p, -, rfl⟩ := List.mem_map.1 hx
    simp
  · obtain rfl := List.mem_singleton.1 hx
    simp

theorem walks_cycleBody (t : Nat) (ms ds : List Byte) : Walks .shared (cycleBody t ms ds) .ctrl .arb := by
  obtain ⟨q, hq, hbytes⟩ := walks_bytes (rx := .shared) (deliveriesOf .m t ms ++ deliveriesOf .d t ds) (.inl rfl)
  exact hbytes.append (walks_tick hq)

theorem switch_active_ne (a : Arbiter) (n : Nat) : (a.switch n).active ≠ a.active := other_ne a.active

section cycles
variable {cfg : Config} {rest : List Stimulus} {s : State} {a : Arbiter} {n n0 : Nat}

/-- A cycle one millisecond later, less than a slice after the last switch until then: its ARB switches exactly when
that completes the slice. -/
theorem run_cycle {ms ds : List Byte} (hrx : cfg.rxModel = .shared)
    (h : Ready cfg .ctrl (cycle .shared (n + 1) ms ds ++ rest) s) (ha : s.arb = some a)
    (hlsw : a.lsw = n0 % 2 ^ cfg.timeWidth) (hle : n0 ≤ n) (hlt : n - n0 < cfg.timeslice) :
    ∃ t, run (cycle .shared (n + 1) ms ds).length s = .next t ∧ Ready cfg .ctrl rest t ∧
      if n + 1 - n0 = cfg.timeslice then
        t.arb = some (a.switch ((n + 1) % 2 ^ cfg.timeWidth)) ∧ switches (cycle .shared (n + 1) ms ds).length s = 1
      else t.arb = some a ∧ switches (cycle .shared (n + 1) ms ds).length s = 0 := by
  rw [cycle_eq, List.append_assoc] at h
  obtain ⟨u, hrun, hu⟩ := run_walk (rest := .ofInstr .arb (n + 1) :: rest) h (hrx ▸ walks_cycleBody _ ms ds)
  obtain ⟨harbU, hswitches⟩ := run_arb cycleBody_ne_arb h.input hrun
  obtain ⟨t, hstep, he, ht⟩ := step_ready hu (by rw [hrx]; rfl) rfl
  have hslice : (u.sample (n + 1) rest).sliceElapsed a = true ↔ n + 1 - n0 = cfg.timeslice := by
    have hwidth := timeslice_lt (hu.cfg ▸ hu.inv.cfg_wf)
    rw [State.sliceElapsed, sample_cfg, sample_now, hu.cfg, hlsw, elapsed_of_le (by omega) (by omega),
      decide_eq_true_iff]
    omega
  have harb : t.arb =
      some (if n + 1 - n0 = cfg.timeslice then a.switch ((n + 1) % 2 ^ cfg.timeWidth) else a) := by
    rw [he.arb_after]
    simp only [sample_arb, harbU, ha, Option.map_some, hslice, sample_now, hu.cfg]
  have hlength : (cycle .shared (n + 1) ms ds).length = (cycleBody (n + 1) ms ds).length + 1 := by simp [cycle_eq]
  refine ⟨t, by rw [hlength, run_add_of_run hrun, run_succ_of_step hstep, run_zero], ht, ?_⟩
  rw [hlength, switches_add hrun, hswitches, switches_succ hstep, switches, harb, harbU, ha]
  split <;> simp [switch_active_ne]

/-- Cycles at consecutive milliseconds, `n - n0` milliseconds into a slice. -/
theorem switches_cycles {cs : List (List Byte × List Byte)} (hrx : cfg.rxModel = .shared)
    (h : Ready cfg .ctrl ((cs.mapIdx fun j p => cycle .shared (n + 1 + j) p.1 p.2).flatten ++ rest) s)
    (ha : s.arb = some a) (hlsw : a.lsw = n0 % 2 ^ cfg.timeWidth) (hle : n0 ≤ n) (hlt : n - n0 < cfg.timeslice) :
    switches (cs.mapIdx fun j p => cycle .shared (n + 1 + j) p.1 p.2).flatten.length s =
      (n - n0 + cs.length) / cfg.timeslice := by
  induction cs generalizing s a n n0 with
  | nil => exact (Nat.div_eq_of_lt hlt).symm
  | cons c cs ih =>
    have hshift : (fun j (p : List Byte × List Byte) => cycle .shared (n + 1 + (j + 1)) p.1 p.2) =
        fun j p => cycle .shared (n + 1 + 1 + j) p.1 p.2 := by
      funext j p
      rw [show n + 1 + (j + 1) = n + 1 + 1 + j by omega]
    rw [List.mapIdx_cons, List.flatten_cons, hshift, Nat.add_zero] at h ⊢
    rw [List.append_assoc] at h
    obtain ⟨t, hrun, ht, hcase⟩ := run_cycle hrx h ha hlsw hle hlt
    rw [List.length_append, switches_add hrun, List.length_cons]
    split at hcase
    · obtain ⟨harb, hswitches⟩ := hcase
      rw [hswitches, ih ht harb rfl (le_refl _) (by omega),
        show n - n0 + (cs.length + 1) = n + 1 - (n + 1) + cs.length + cfg.timeslice by omega,
        Nat.add_div_right _ (by omega), Nat.add_comm]
    · obtain ⟨harb, hswitches⟩ := hcase
      rw [hswitches, ih ht harb hlsw (by omega) (by omega), Nat.zero_add]
      congr 1
      omega

end cycles

/-- Settles O45: at the start the last switch was no time ago. -/
theorem switchesCountTheSlices : Obligations.SwitchesCountTheSlices := by
  intro s a t0 cs rest hinv hrx hr hp hpos ha hlsw hin
  rw [switches_cycles hrx ⟨hinv, rfl, hr, hp, hin⟩ ha hlsw (le_refl _) (by omega), Nat.sub_self, Nat.zero_add]

end Sys2Proof.Machine
end

section
/-! Bursts (R105): what a channel holds of the bytes received since it was empty, and the one frame of its flush. -/

namespace Sys2Proof.Machine

/-! ## Frame records -/

theorem framesOf_eq (c : Chan) (l : List Event) :
    framesOf c l = (eventsOf c l).filter fun e => decide (e.kind = 0#1) := by
  rw [framesOf, eventsOf, List.filter_filter]
  refine List.filter_congr fun e _ => ?_
  rw [Bool.decide_and]

theorem framesOf_append (c : Chan) (l l' : List Event) : framesOf c (l ++ l') = framesOf c l ++ framesOf c l' :=
  List.filter_append l l'

theorem scanEvents_kind {cfg : Config} {c : Chan} {f : List Byte} : ∀ e ∈ scanEvents cfg c f, e.kind ≠ 0#1 := by
  intro e he
  unfold scanEvents at he
  split at he
  · simp at he
  · split at he
    · simp at he
    · rw [List.mem_singleton.1 he, Event.kind]
      decide

/-- A TICK's frame records of a channel: one with its frame if it is due, else none. -/
theorem framesOf_tickEvents (c : Chan) (s : State) :
    framesOf c (tickEvents s) =
      if s.due c = true then [.frameCompleted c (s.ch c).ovf (s.ch c).len (s.ch c).bytes] else [] := by
  rw [framesOf_eq, eventsOf_tickEvents, turnEvents]
  split
  · rw [flushEvents, List.filter_cons_of_pos (by rfl),
      List.filter_eq_nil_iff.2 fun e he => by simpa using scanEvents_kind e he]
  · rfl

theorem framesOf_emits_of_not_clears {s : State} {c : Chan} (h : s.clears c = false) : framesOf c s.emits = [] := by
  unfold State.emits
  split
  · rename_i s' hp
    have hdue : s'.due c = false := by
      simp only [State.clears, hp, Bool.or_eq_false_iff] at h
      exact h.2
    rw [framesOf_tickEvents, hdue, if_neg Bool.false_ne_true]
  · rfl

/-! ## The run -/

section
variable {c : Chan} {k : Nat} {s u t : State} {bs : List Byte}

theorem received_succ (h : step s = .next u) : received c (k + 1) s = s.receives c ++ received c k u := by
  rw [received, h]

theorem unclearedFor_succ (h : step s = .next u) :
    unclearedFor c (k + 1) s = true ↔ s.clears c = false ∧ unclearedFor c k u = true := by
  rw [unclearedFor, h, Bool.and_eq_true, Bool.not_eq_true']

/-- A run that does not clear the channel leaves in it what is left of all its bytes, and emits no frame of it. -/
theorem run_burst (hholds : (s.ch c).Holds (s.cfg.capacity c) bs) (h : run k s = .next t)
    (hclear : unclearedFor c k s = true) :
    t.cfg = s.cfg ∧ (t.ch c).Holds (s.cfg.capacity c) (bs ++ received c k s) ∧
      framesOf c t.evt = framesOf c s.evt := by
  induction k generalizing s bs with
  | zero =>
    obtain rfl := Host.Outcome.next.inj h
    exact ⟨rfl, by simpa [received] using hholds, rfl⟩
  | succ k ih =>
    obtain ⟨u, hstep, hrun⟩ := run_succ_eq_next h
    obtain ⟨hkeep, hclear⟩ := (unclearedFor_succ hstep).1 hclear
    have hr : s.resetNext = false := by
      rw [State.clears, Bool.or_eq_false_iff] at hkeep
      exact hkeep.1
    have hcfg := step_cfg hstep
    have hu : (u.ch c).Holds (u.cfg.capacity c) (bs ++ s.receives c) := by
      rw [ch_of_not_clears hstep hkeep, hcfg]
      exact hholds.foldl_receive _
    obtain ⟨hcfg', hheld, hframes⟩ := ih hu hrun hclear
    refine ⟨hcfg'.trans hcfg, ?_, ?_⟩
    · rwa [received_succ hstep, ← List.append_assoc, ← hcfg]
    · rw [hframes, step_evt hstep hr, framesOf_append, framesOf_emits_of_not_clears hkeep, List.append_nil]

theorem flushes_iff : t.flushes c = true ↔ ∃ t', t.performs = some (.tick, t') ∧ t'.due c = true := by
  unfold State.flushes
  split
  · simp [*]
  · rename_i hnot
    exact ⟨fun h => absurd h Bool.false_ne_true, fun ⟨t', hp, _⟩ => absurd hp (hnot t')⟩

/-- A flush emits one frame, and clears the channel. -/
theorem step_of_flushes (hflush : t.flushes c = true) (h : step t = .next u) :
    framesOf c u.evt = framesOf c t.evt ++ [.frameCompleted c (t.ch c).ovf (t.ch c).len (t.ch c).bytes] ∧
      (u.ch c).len = 0 ∧ (u.ch c).ovf = false := by
  obtain ⟨t', hp, hdue⟩ := flushes_iff.1 hflush
  have hr : t.resetNext = false := by
    by_contra hr
    rw [performs_of_resetNext (Bool.eq_true_of_not_eq_false hr)] at hp
    cases hp
  refine ⟨?_, len_ovf_of_clears h (by simp [State.clears, hp, hdue])⟩
  obtain ⟨w, n, rest, -, -, -, rfl, -⟩ := performs_eq_some.1 hp
  rw [step_evt h hr, framesOf_append, State.emits, hp]
  simp [framesOf_tickEvents, hdue]

end

/-- Settles O44: an empty channel inside the invariant holds nothing, the run leaves in it what is left of its bytes,
and the flush emits that. -/
theorem oneFramePerBurst : Obligations.OneFramePerBurst := by
  intro c k s t u hinv hlen hrun hclear _ hflush hstep
  have hovf : (s.ch c).ovf = false := by
    by_contra hovf
    have hfull := (hinv.chan c).ovf_full (Bool.eq_true_of_not_eq_false hovf)
    have hpos := capacity_pos hinv.cfg_wf c
    omega
  obtain ⟨-, hheld, hframes⟩ := run_burst (holds_nil hlen hovf) hrun hclear
  obtain ⟨hflushed, hcleared⟩ := step_of_flushes hflush hstep
  rw [hheld.ovf, hheld.len, hheld.bytes, hframes] at hflushed
  exact ⟨hframes, hflushed, hcleared⟩

end Sys2Proof.Machine
end

section
/-! Runs that claim cover (R173): every word of one is performed, and the duties on times hold of what is left of it. -/

namespace Sys2Proof.Machine

/-- A mark stands to the end of a run with no reset in it. -/
theorem refused_of_run {k : Nat} {s t : State} (hno : ∀ x ∈ s.input, ∀ n b, x ≠ .reset n b)
    (h : run k s = .next t) (hr : t.refused = none) : s.refused = none := by
  induction k generalizing s with
  | zero =>
    obtain rfl := Host.Outcome.next.inj h
    exact hr
  | succ k ih =>
    obtain ⟨u, hstep, hrun⟩ := run_succ_eq_next h
    have hu : u.refused = none := ih (fun x hx => hno x (List.mem_of_mem_tail (step_input hstep ▸ hx))) hrun
    cases hm : s.refused with
    | none => rfl
    | some m =>
      have hnext : s.resetNext = false := by
        unfold State.resetNext
        split
        · rename_i n b rest hin
          exact absurd rfl (hno _ (hin ▸ List.mem_cons_self ..) n b)
        · rfl
      rw [step_refused hm hstep, hnext, if_neg Bool.false_ne_true] at hu
      cases hu

/-- The rest of a run that claims cover: no reset is to come, the times to come are in order, and the run comes to its
end with nothing refused. -/
structure Covered (v : State) : Prop where
  inv : v.Inv
  no_reset : ∀ x ∈ v.input, ∀ n b, x ≠ .reset n b
  times : TimeDuty v.input
  ends : ∃ s, run v.input.length v = .next s ∧ s.refused = none

theorem SafeRun.covered {cfg : Config} {t : Nat} {bytes : Contents} {ops : List Stimulus} {s : State}
    (h : SafeRun cfg t bytes ops s) : Covered (State.boot cfg t bytes ops) where
  inv := boot_inv h.parameters t bytes ops
  no_reset := h.one_reset
  times := (List.pairwise_cons.1 h.times).2
  ends := ⟨s, h.ends, h.unrefused⟩

theorem timeDuty_tail {x : Stimulus} {l : List Stimulus} (h : TimeDuty (x :: l)) : TimeDuty l := by
  cases x with
  | idle => exact h
  | _ => exact (List.pairwise_cons.1 h).2

/-- By the time duty what comes after an operation comes no earlier. -/
theorem le_of_timeDuty {l rest : List Stimulus} {w : Word} {n : Nat} (h : TimeDuty l) (hl : l = .op w n :: rest) :
    ∀ x ∈ timesOf rest, n ≤ x := by
  subst hl
  exact (List.pairwise_cons.1 h).1

section
variable {v v' : State}

theorem Covered.refused (h : Covered v) : v.refused = none := by
  obtain ⟨s, hrun, hr⟩ := h.ends
  exact refused_of_run h.no_reset hrun hr

theorem Covered.step (h : Covered v) (hs : Machine.step v = .next v') : Covered v' := by
  have hinput := step_input hs
  refine ⟨step_inv h.inv hs, fun x hx => h.no_reset x (List.mem_of_mem_tail (hinput ▸ hx)), ?_, ?_⟩
  · cases hin : v.input with
    | nil => rw [hinput, hin]; exact List.Pairwise.nil
    | cons x rest =>
      rw [hinput, hin]
      exact timeDuty_tail (hin ▸ h.times)
  · obtain ⟨s, hrun, hr⟩ := h.ends
    cases hin : v.input with
    | nil =>
      obtain rfl := Host.Outcome.next.inj ((step_nil hin).symm.trans hs)
      exact ⟨s, hrun, hr⟩
    | cons x rest =>
      rw [hin, List.length_cons, run_succ_of_step hs] at hrun
      exact ⟨s, by rw [hinput, hin]; exact hrun, hr⟩

/-- The ways of a covered run: it idles, or performs the word presented. -/
inductive CoveredStep (v v' : State) : Prop
  | nothing : v.input = [] → v' = v → CoveredStep v v'
  | idle {rest} : v.input = .idle :: rest → v' = v.skip rest → CoveredStep v v'
  | performed {w n rest i} : v.input = .op w n :: rest → decode w = .op i →
      v.performs = some (i, v.sample n rest) → Effect i (v.sample n rest) v' → CoveredStep v v'

theorem Covered.cases (h : Covered v) (hs : Machine.step v = .next v') : CoveredStep v v' := by
  have hr := (h.step hs).refused
  cases step_cases hs with
  | nothing hin ht => exact .nothing hin ht
  | idle hin ht => exact .idle hin ht
  | reset hin => exact absurd rfl (h.no_reset _ (hin ▸ List.mem_cons_self ..) _ _)
  | ignored _ hm => simp [h.refused] at hm
  | reserved _ _ _ ht => simp [ht] at hr
  | refused _ _ _ _ ht => simp [ht] at hr
  | performed hin hd hp he => exact .performed hin hd hp he

end

end Sys2Proof.Machine
end

section
/-! Timestamps (R166): a true time and its sample, compared with a threshold at evaluations no further apart than the
aliasing bound. -/

namespace Sys2Proof.Machine

/-- `stamp` is the sample of the true time `L`, which is not after any of the times to come, and at the last evaluation,
at the true time `A`, it was younger than the threshold. (A threshold of 0 is met at any age, so nothing is asked
then.) -/
structure Stamp (width threshold L A stamp : Nat) (times : List Nat) : Prop where
  sampled : stamp = L % 2 ^ width
  le : ∀ x ∈ times, L ≤ x
  near : threshold ≠ 0 → A < L + threshold

section
variable {width threshold L A stamp n : Nat} {times : List Nat}

theorem Stamp.tail (h : Stamp width threshold L A stamp (n :: times)) : Stamp width threshold L A stamp times :=
  ⟨h.sampled, fun x hx => h.le x (List.mem_cons_of_mem _ hx), h.near⟩

/-- A timestamp written now is young. -/
theorem Stamp.write (hA : A ≤ n) (htimes : ∀ x ∈ times, n ≤ x) :
    Stamp width threshold n A (n % 2 ^ width) times :=
  ⟨rfl, htimes, fun hpos => by omega⟩

/-- A timestamp found younger than the threshold by an evaluation. -/
theorem Stamp.evaluated (h : Stamp width threshold L A stamp times) (hle : L ≤ n) (hyoung : ¬ threshold ≤ n - L) :
    Stamp width threshold L n stamp times :=
  ⟨h.sampled, h.le, fun _ => by omega⟩

/-- The evaluation within the aliasing bound of the last one is exact. -/
theorem Stamp.exact {bound : Nat} (h : Stamp width threshold L A stamp times) (hle : L ≤ n) (hn : n ≤ A + bound)
    (hbound : bound ≤ 2 ^ width - threshold) (hwidth : threshold < 2 ^ width) :
    threshold ≤ elapsed width (n % 2 ^ width) stamp ↔ threshold ≤ n - L := by
  rcases Nat.eq_zero_or_pos threshold with hzero | hpos
  · simp [hzero]
  · have hnear := h.near (by omega)
    rw [h.sampled, elapsed_of_le hle (by omega)]

end

/-- The evaluations of operation `i`, of which the last was at the true time `A`: those to come are no further apart
than the aliasing bound. -/
structure Evaluated (i : Instr) (A : Nat) (v : State) : Prop where
  chain : (A :: timesOfOp i v.input).IsChain fun a b => b ≤ a + aliasBound v.cfg
  le : ∀ x ∈ timesOf v.input, A ≤ x

section
variable {i j : Instr} {A n : Nat} {w : Word} {rest : List Stimulus} {v v' : State}

theorem Evaluated.idle (h : Evaluated i A v) (hin : v.input = .idle :: rest) (hcfg : v'.cfg = v.cfg)
    (hinput : v'.input = rest) : Evaluated i A v' := by
  obtain ⟨hchain, hle⟩ := h
  rw [hin] at hchain hle
  exact ⟨hcfg ▸ hinput ▸ hchain, hinput ▸ hle⟩

/-- An evaluation comes within the bound of the last one. -/
theorem Evaluated.bound (h : Evaluated i A v) (hin : v.input = .op w n :: rest) (hd : decode w = .op i) :
    n ≤ A + aliasBound v.cfg := by
  have hchain := h.chain
  rw [hin, timesOfOp, if_pos hd, List.isChain_cons_cons] at hchain
  exact hchain.1

/-- After an operation at the true time `n` the last evaluation is no later. -/
theorem Evaluated.le_op (h : Evaluated i A v) (hin : v.input = .op w n :: rest) : (if j = i then n else A) ≤ n := by
  split
  · exact le_refl _
  · exact h.le n (hin ▸ List.mem_cons_self ..)

/-- After the operation `j` at the true time `n`, the last evaluation is this one if `j` is one. -/
theorem Evaluated.op (h : Evaluated i A v) (htimes : TimeDuty v.input) (hin : v.input = .op w n :: rest)
    (hd : decode w = .op j) (hcfg : v'.cfg = v.cfg) (hinput : v'.input = rest) :
    Evaluated i (if j = i then n else A) v' := by
  obtain ⟨hchain, hle⟩ := h
  have hafter := le_of_timeDuty htimes hin
  rw [hin] at hchain hle
  rw [timesOfOp, hd] at hchain
  refine ⟨?_, ?_⟩
  all_goals
    rw [hinput]
    split
  · rw [if_pos (by simp [*]), List.isChain_cons_cons] at hchain
    exact hcfg ▸ hchain.2
  · rw [if_neg (by simp [*])] at hchain
    exact hcfg ▸ hchain
  · exact hafter
  · exact fun x hx => hle x (List.mem_cons_of_mem _ hx)

end

theorem aliasBound_le_gap (cfg : Config) : aliasBound cfg ≤ 2 ^ cfg.timeWidth - cfg.gapThreshold := by
  have := le_max_left cfg.gapThreshold cfg.timeslice
  unfold aliasBound
  omega

theorem aliasBound_le_slice (cfg : Config) : aliasBound cfg ≤ 2 ^ cfg.timeWidth - cfg.timeslice := by
  have := le_max_right cfg.gapThreshold cfg.timeslice
  unfold aliasBound
  omega

end Sys2Proof.Machine
end

section
/-! Slices in covered runs (R110, R166): `LSW` samples the true time of the last switch, and every ARB compares it
exactly. -/

namespace Sys2Proof.Machine

/-- In the state `v`, `L` is the true time of the last switch and `A` that of the last ARB. -/
structure SliceTrack (L A : Nat) (v : State) : Prop where
  evaluated : Evaluated .arb A v
  stamp : ∀ a, v.arb = some a → Stamp v.cfg.timeWidth v.cfg.timeslice L A a.lsw (timesOf v.input)

theorem sliceTrack_boot {cfg : Config} {t : Nat} {bytes : Contents} {ops : List Stimulus}
    (htimes : TimeDuty (.reset t bytes :: ops)) (halias : AliasDuty cfg t ops) :
    SliceTrack t t (State.boot cfg t bytes ops) where
  evaluated := ⟨halias.2, (List.pairwise_cons.1 htimes).1⟩
  stamp a ha := by
    have hlsw : a.lsw = t % 2 ^ cfg.timeWidth := by
      cases hrx : cfg.rxModel with
      | dedicated => simp [State.boot, State.resetOf, hrx] at ha
      | shared =>
        obtain rfl : _ = a := by simpa [State.boot, State.resetOf, hrx] using ha
        rfl
    rw [hlsw]
    exact .write (le_refl _) (List.pairwise_cons.1 htimes).1

section
variable {L A n : Nat} {w : Word} {rest : List Stimulus} {v v' : State} {a : Arbiter}

theorem SliceTrack.le (h : SliceTrack L A v) (hin : v.input = .op w n :: rest) (ha : v.arb = some a) : L ≤ n :=
  (h.stamp a ha).le n (by rw [hin]; exact List.mem_cons_self ..)

/-- Every ARB compares the true time since the last switch. -/
theorem SliceTrack.exact (h : SliceTrack L A v) (hwf : v.cfg.wf = true) (hin : v.input = .op w n :: rest)
    (hd : decode w = .op .arb) (ha : v.arb = some a) :
    (v.sample n rest).sliceElapsed a = true ↔ v.cfg.timeslice ≤ n - L := by
  rw [State.sliceElapsed, decide_eq_true_iff]
  exact (h.stamp a ha).exact (h.le hin ha) (h.evaluated.bound hin hd) (aliasBound_le_slice _) (timeslice_lt hwf)

/-- What a performed operation leaves in the arbiter registers: what was there, or a switch. -/
theorem Effect.arb_cases {i : Instr} {s t : State} (he : Effect i s t) {a' : Arbiter} (ha' : t.arb = some a') :
    ∃ a, s.arb = some a ∧ ((a' = a ∧ (i = .arb → ¬ s.sliceElapsed a = true)) ∨ a' = a.switch s.now) := by
  rw [he.arb_after] at ha'
  cases i with
  | arb =>
    obtain ⟨a, ha, rfl⟩ := Option.map_eq_some_iff.1 ha'
    refine ⟨a, ha, ?_⟩
    split
    · exact .inr rfl
    · exact .inl ⟨rfl, fun _ => ‹_›⟩
  | fsw =>
    obtain ⟨a, ha, rfl⟩ := Option.map_eq_some_iff.1 ha'
    exact ⟨a, ha, .inr rfl⟩
  | _ => exact ⟨a', ha', .inl ⟨rfl, by simp⟩⟩

theorem switchTime_of_op (hin : v.input = .op w n :: rest) :
    v.switchTime v' L = if v'.arb.map Arbiter.active = v.arb.map Arbiter.active then L else n := by
  rw [State.switchTime, hin]

/-- A performed operation keeps track: a switch writes `LSW` now, and an ARB that does not switch has found it young. -/
theorem SliceTrack.performed {i : Instr} (h : SliceTrack L A v) (hwf : v.cfg.wf = true) (htimes : TimeDuty v.input)
    (hin : v.input = .op w n :: rest) (hd : decode w = .op i) (he : Effect i (v.sample n rest) v') :
    SliceTrack (v.switchTime v' L) (if i = .arb then n else A) v' := by
  obtain ⟨hcfg, -, -, hinput⟩ := he.frame
  have hevaluated : Evaluated .arb (if i = .arb then n else A) v' := h.evaluated.op htimes hin hd hcfg hinput
  refine ⟨hevaluated, fun a' ha' => ?_⟩
  obtain ⟨a, ha, hcase⟩ := he.arb_cases ha'
  rw [sample_arb] at ha
  have hstamp := h.stamp a ha
  rw [hin] at hstamp
  rw [switchTime_of_op hin, hcfg, hinput, sample_input, sample_cfg, ha, ha']
  rcases hcase with ⟨rfl, hyoung⟩ | rfl
  · rw [if_pos rfl]
    split
    · subst i
      exact hstamp.tail.evaluated (h.le hin ha) fun hold => hyoung rfl ((h.exact hwf hin hd ha).2 hold)
    · exact hstamp.tail
  · rw [if_neg (by simpa using switch_active_ne a _)]
    exact .write (h.evaluated.le_op hin) (le_of_timeDuty htimes hin)

theorem SliceTrack.step (h : SliceTrack L A v) (hv : Covered v) (hs : Machine.step v = .next v') :
    ∃ A', SliceTrack (v.switchTime v' L) A' v' := by
  cases hv.cases hs with
  | nothing hin ht =>
    rw [ht, State.switchTime, hin]
    exact ⟨A, h⟩
  | idle hin ht =>
    rw [State.switchTime, hin]
    have hstamp := h.stamp
    rw [hin] at hstamp
    exact ⟨A, h.evaluated.idle hin (by rw [ht, skip_cfg]) (by rw [ht, skip_input]), by rw [ht]; exact hstamp⟩
  | performed hin hd _ he => exact ⟨_, h.performed hv.inv.cfg_wf hv.times hin hd he⟩

theorem SliceTrack.run {k : Nat} {u : State} (h : SliceTrack L A v) (hv : Covered v)
    (hrun : Machine.run k v = .next u) :
    Covered u ∧ u.cfg = v.cfg ∧ ∃ A', SliceTrack (lastSwitch L k v) A' u := by
  induction k generalizing v L A with
  | zero =>
    obtain rfl := Host.Outcome.next.inj hrun
    exact ⟨hv, rfl, A, h⟩
  | succ k ih =>
    obtain ⟨v', hstep, hrun⟩ := run_succ_eq_next hrun
    obtain ⟨A', h'⟩ := h.step hv hstep
    rw [lastSwitch, hstep, ← step_cfg hstep]
    exact ih h' (hv.step hstep) hrun

end

/-- What a performed word says of the word presented. -/
theorem performs_op {u u' : State} {w : Word} {n : Nat} {rest : List Stimulus} {i : Instr}
    (hin : u.input = .op w n :: rest) (hp : u.performs = some (i, u')) : decode w = .op i ∧ u' = u.sample n rest := by
  obtain ⟨w', n', rest', hin', hd, -, hu', -⟩ := performs_eq_some.1 hp
  rw [hin] at hin'
  cases hin'
  exact ⟨hd, hu'⟩

/-- Settles O47: the run keeps track of the last switch up to the ARB, which is then exact. -/
theorem safeRunsCompareSlicesExactly : Obligations.SafeRunsCompareSlicesExactly := by
  intro cfg t bytes ops s hsafe k u u' w n rest a hrun hin hp ha
  obtain ⟨hd, rfl⟩ := performs_op hin hp
  obtain ⟨hcovered, hcfg, A, htrack⟩ := (sliceTrack_boot hsafe.times hsafe.aliasing).run hsafe.covered hrun
  refine ⟨htrack.le hin ha, ?_⟩
  rw [htrack.exact hcovered.inv.cfg_wf hin hd ha, hcfg]
  rfl

end Sys2Proof.Machine
end

section
/-! Gaps in covered runs (R102, R166): `LAST` of a non-empty channel samples the true time of its last byte, and every
TICK compares it exactly. -/

namespace Sys2Proof.Machine

/-- In the state `v`, `L` is the true time of the last byte of channel `c` while it is non-empty, and `A` that of the
last TICK. -/
structure GapTrack (c : Chan) (L A : Nat) (v : State) : Prop where
  evaluated : Evaluated .tick A v
  stamp : 0 < (v.ch c).len → Stamp v.cfg.timeWidth v.cfg.gapThreshold L A (v.ch c).last (timesOf v.input)

theorem gapTrack_boot {cfg : Config} {t : Nat} {bytes : Contents} {ops : List Stimulus}
    (htimes : TimeDuty (.reset t bytes :: ops)) (halias : AliasDuty cfg t ops)
    (hfirst : ∀ x, (timesOfOp .tick ops).head? = some x → x ≤ t + aliasBound cfg) (c : Chan) :
    GapTrack c t t (State.boot cfg t bytes ops) where
  evaluated := ⟨List.isChain_cons.2 ⟨fun x hx => hfirst x hx, halias.1⟩, (List.pairwise_cons.1 htimes).1⟩
  stamp hlen := by simp [boot_ch] at hlen

section
variable {c : Chan} {L A n : Nat} {w : Word} {rest : List Stimulus} {v v' : State}

theorem GapTrack.le (h : GapTrack c L A v) (hin : v.input = .op w n :: rest) (hlen : 0 < (v.ch c).len) : L ≤ n :=
  (h.stamp hlen).le n (by rw [hin]; exact List.mem_cons_self ..)

/-- Every TICK compares the true time since the last byte of a non-empty channel. -/
theorem GapTrack.exact (h : GapTrack c L A v) (hwf : v.cfg.wf = true) (hin : v.input = .op w n :: rest)
    (hd : decode w = .op .tick) (hlen : 0 < (v.ch c).len) :
    (v.sample n rest).gapElapsed c = true ↔ v.cfg.gapThreshold ≤ n - L := by
  rw [State.gapElapsed, decide_eq_true_iff, sample_ch]
  exact (h.stamp hlen).exact (h.le hin hlen) (h.evaluated.bound hin hd) (aliasBound_le_gap _) (gapThreshold_lt hwf)

/-- A channel that is non-empty after a step that received no byte of it was non-empty before, and a TICK has found it
young. -/
theorem young_of_len_pos {i : Instr} (hs : Machine.step v = .next v') (hp : v.performs = some (i, v.sample n rest))
    (hrec : v.receives c = []) (hlen : 0 < (v'.ch c).len) :
    0 < (v.ch c).len ∧ (i = .tick → ¬ (v.sample n rest).gapElapsed c = true) := by
  obtain ⟨hle, -⟩ := len_ovf_of_receives_nil hs hrec
  have hpos : 0 < (v.ch c).len := hlen.trans_le hle
  refine ⟨hpos, ?_⟩
  rintro rfl hgap
  have hclears : v.clears c = true := by simp [State.clears, hp, State.due, hgap, hpos]
  obtain ⟨hzero, -⟩ := len_ovf_of_clears hs hclears
  omega

theorem byteTime_of_op (hin : v.input = .op w n :: rest) :
    v.byteTime c L = if v.receives c = [] then L else n := by
  rw [State.byteTime, hin]

/-- A performed operation keeps track: a byte writes `LAST` now, and a TICK that leaves the channel non-empty has found
it young. -/
theorem GapTrack.performed {i : Instr} (h : GapTrack c L A v) (hv : Covered v) (hs : Machine.step v = .next v')
    (hin : v.input = .op w n :: rest) (hd : decode w = .op i) (hp : v.performs = some (i, v.sample n rest))
    (he : Effect i (v.sample n rest) v') : GapTrack c (v.byteTime c L) (if i = .tick then n else A) v' := by
  obtain ⟨hcfg, -, hnow, hinput⟩ := he.frame
  have hr : v.resetNext = false := by rw [State.resetNext, hin]
  refine ⟨h.evaluated.op hv.times hin hd hcfg hinput, fun hlen => ?_⟩
  rw [byteTime_of_op hin, step_last hs hr c, hcfg, hinput, hnow, sample_input, sample_cfg, sample_now]
  split
  · rename_i hrec
    obtain ⟨hpos, hyoung⟩ := young_of_len_pos hs hp hrec hlen
    have hstamp := h.stamp hpos
    rw [hin] at hstamp
    split
    · subst i
      exact hstamp.tail.evaluated (h.le hin hpos) fun hold => hyoung rfl ((h.exact hv.inv.cfg_wf hin hd hpos).2 hold)
    · exact hstamp.tail
  · exact .write (h.evaluated.le_op hin) (le_of_timeDuty hv.times hin)

theorem GapTrack.step (h : GapTrack c L A v) (hv : Covered v) (hs : Machine.step v = .next v') :
    ∃ A', GapTrack c (v.byteTime c L) A' v' := by
  cases hv.cases hs with
  | nothing hin ht =>
    rw [ht, State.byteTime, hin]
    exact ⟨A, h⟩
  | idle hin ht =>
    rw [State.byteTime, hin]
    have hstamp := h.stamp
    rw [hin] at hstamp
    refine ⟨A, h.evaluated.idle hin (by rw [ht, skip_cfg]) (by rw [ht, skip_input]), ?_⟩
    rw [ht, skip_ch]
    exact hstamp
  | performed hin hd hp he => exact ⟨_, h.performed hv hs hin hd hp he⟩

theorem GapTrack.run {k : Nat} {u : State} (h : GapTrack c L A v) (hv : Covered v)
    (hrun : Machine.run k v = .next u) :
    Covered u ∧ u.cfg = v.cfg ∧ ∃ A', GapTrack c (lastByte c L k v) A' u := by
  induction k generalizing v L A with
  | zero =>
    obtain rfl := Host.Outcome.next.inj hrun
    exact ⟨hv, rfl, A, h⟩
  | succ k ih =>
    obtain ⟨v', hstep, hrun⟩ := run_succ_eq_next hrun
    obtain ⟨A', h'⟩ := h.step hv hstep
    rw [lastByte, hstep, ← step_cfg hstep]
    exact ih h' (hv.step hstep) hrun

end

/-- Settles O48: the run keeps track of the last byte up to the TICK, which is then exact. -/
theorem safeRunsCompareGapsExactly : Obligations.SafeRunsCompareGapsExactly := by
  intro cfg t bytes ops s hsafe hfirst k u u' w n rest c hrun hin hp hlen
  obtain ⟨hd, rfl⟩ := performs_op hin hp
  rw [sample_ch] at hlen
  obtain ⟨hcovered, hcfg, A, htrack⟩ := (gapTrack_boot hsafe.times hsafe.aliasing hfirst c).run hsafe.covered hrun
  refine ⟨htrack.le hin hlen, ?_⟩
  rw [htrack.exact hcovered.inv.cfg_wf hin hd hlen, hcfg]
  rfl

end Sys2Proof.Machine
end
